-- ==== Sys2Proof/Word.lean ====
section
/-! DEFINITION. The plain data widths of CORE: bytes, instruction words, 12-bit addresses, nibbles
(spec/00_scope.md R2, spec/30_encoding.md R61). -/

namespace Sys2Proof

/-- A memory byte, a general register, a timer, a framebuffer byte: 8 bits (R2 `XLEN`, R10, R40). -/
abbrev Byte := BitVec 8

/-- An instruction word: 16 bits (R60). -/
abbrev Word := BitVec 16

/-- A 12-bit value: the field `NNN` and the index register `I` (R61, R20). -/
abbrev Addr := BitVec 12

/-- A 4-bit value: the field `N`, the row count of `DRW` (R61, R63). -/
abbrev Nibble := BitVec 4

/-- A virtual key 0x0 to 0xF (R28). The sentinel "none" is `Option.none`, never a key. -/
abbrev Key := BitVec 4

/-- The index of a general register, always below 16 because it is a 4-bit field (R10). -/
abbrev RegId := Fin 16

/-- Two consecutive memory bytes as one word, the byte at the lower address high (R42, R52). -/
def wordOf (hi lo : Byte) : Word := BitVec.ofNat 16 (hi.toNat * 256 + lo.toNat)

/-- Bits 15:8 of a word: the byte stored at the lower address (R52). -/
def highByte (w : Word) : Byte := BitVec.ofNat 8 (w.toNat / 256)

/-- Bits 7:0 of a word: the byte stored at the higher address (R52). -/
def lowByte (w : Word) : Byte := BitVec.ofNat 8 w.toNat

end Sys2Proof
end

