-- ==== Sys2Proof/Config.lean ====
section
/-! DEFINITION. The parameters of CORE that the source fixes (spec/00_scope.md R2), and the values the
spec leaves open, as constants without a body. -/

namespace Sys2Proof.Config

/-- `MEM_SIZE`: bytes of memory (R2, R40). -/
@[simp] abbrev memSize : Nat := 4096

/-- `ENTRY`: the reset `PC` and the load address of a program (R2, R16). -/
@[simp] abbrev entry : Nat := 0x200

/-- `MAX_ROM`: the largest loadable program, `MEM_SIZE - ENTRY` (R2, R231). -/
@[simp] abbrev maxRom : Nat := 3584

/-- `STACK_DEPTH`: entries of the call stack (R2, R25). -/
@[simp] abbrev stackDepth : Nat := 16

/-- `INSN_BYTES`: the instruction width in bytes (R2, R60). -/
@[simp] abbrev insnBytes : Nat := 2

/-- `GLYPH_COUNT * GLYPH_BYTES`: bytes of the glyph table, at addresses 0 to 79 (R2, R46). -/
@[simp] abbrev glyphTableBytes : Nat := 80

/-- `FLAG_REG`: the index of the flag register VF (R2, R13). -/
@[simp] abbrev flagReg : RegId := 15

/-- The environment of `RND`: the byte of the `n`-th draw. No body: nothing constrains it (R133, D13;
log 13). FREE VALUE. -/
opaque randomByte : Nat → Byte

/-- `GLYPHS`: the byte of the glyph table at an address below 80. An open parameter: no body, so no proof
depends on a glyph's bytes (R2, R30, R46, D19; log 19). FREE VALUE. -/
opaque glyph : Nat → Byte

/-- `PC` after the host's `cycle` answered `NoCall`: the spec leaves it unspecified (R258, D7; log 7).
FREE VALUE. -/
opaque noCallPc : Nat → Nat

/-- `KEYQ_CAP` less one: the capacity is an open parameter, at least 1 (R2, D17; log 17). No body. -/
opaque keyqCapLessOne : Nat

/-- `KEYQ_CAP`: the capacity of the key queue, open, at least 1 (R2, R28). -/
def keyqCap : Nat := keyqCapLessOne + 1

end Sys2Proof.Config
end

