-- ==== Sys2Proof/Syntax.lean ====
section
/-! DEFINITION. The 34 instructions of CORE, one constructor per row of spec/opcode_table.json, with the
operand fields the row's format names (spec/30_encoding.md R61, R62, R65). -/

namespace Sys2Proof

/-- One decoded instruction: a tag with its operand fields. The fields' types carry their bounds
(R61, R63): register indices 0 to 15, `NNN` 12 bits, `NN` 8 bits, `N` 4 bits. -/
inductive Instr where
  /-- `00E0` CLS (R155). -/
  | cls
  /-- `00EE` RET (R102). -/
  | ret
  /-- `1NNN` JP NNN (R100). -/
  | jp (nnn : Addr)
  /-- `2NNN` CALL NNN (R101). -/
  | call (nnn : Addr)
  /-- `3XNN` SE Vx, NN (R104). -/
  | seImm (x : RegId) (nn : Byte)
  /-- `4XNN` SNE Vx, NN (R105). -/
  | sneImm (x : RegId) (nn : Byte)
  /-- `5XY0` SE Vx, Vy (R106). -/
  | seReg (x y : RegId)
  /-- `6XNN` LD Vx, NN (R120). -/
  | ldImm (x : RegId) (nn : Byte)
  /-- `7XNN` ADD Vx, NN (R121). -/
  | addImm (x : RegId) (nn : Byte)
  /-- `8XY0` LD Vx, Vy (R122). -/
  | ldReg (x y : RegId)
  /-- `8XY1` OR Vx, Vy (R123). -/
  | orReg (x y : RegId)
  /-- `8XY2` AND Vx, Vy (R124). -/
  | andReg (x y : RegId)
  /-- `8XY3` XOR Vx, Vy (R125). -/
  | xorReg (x y : RegId)
  /-- `8XY4` ADD Vx, Vy (R126). -/
  | addReg (x y : RegId)
  /-- `8XY5` SUB Vx, Vy (R127). -/
  | subReg (x y : RegId)
  /-- `8XY6` SHR Vx; `y` is decoded and ignored (R128, R68). -/
  | shr (x y : RegId)
  /-- `8XY7` SUBN Vx, Vy (R129). -/
  | subn (x y : RegId)
  /-- `8XYE` SHL Vx; `y` is decoded and ignored (R130, R68). -/
  | shl (x y : RegId)
  /-- `9XY0` SNE Vx, Vy (R107). -/
  | sneReg (x y : RegId)
  /-- `ANNN` LD I, NNN (R140). -/
  | ldI (nnn : Addr)
  /-- `BNNN` JP V0, NNN (R103). -/
  | jpV0 (nnn : Addr)
  /-- `CXNN` RND Vx, NN (R131). -/
  | rnd (x : RegId) (nn : Byte)
  /-- `DXYN` DRW Vx, Vy, N (R156). -/
  | drw (x y : RegId) (n : Nibble)
  /-- `EX9E` SKP Vx (R176). -/
  | skp (x : RegId)
  /-- `EXA1` SKNP Vx (R177). -/
  | sknp (x : RegId)
  /-- `FX07` LD Vx, DT (R190). -/
  | ldVxDt (x : RegId)
  /-- `FX0A` LD Vx, K (R178). -/
  | ldVxK (x : RegId)
  /-- `FX15` LD DT, Vx (R191). -/
  | ldDtVx (x : RegId)
  /-- `FX18` LD ST, Vx (R192). -/
  | ldStVx (x : RegId)
  /-- `FX1E` ADD I, Vx (R141). -/
  | addIVx (x : RegId)
  /-- `FX29` LD F, Vx (R200). -/
  | ldFVx (x : RegId)
  /-- `FX33` LD B, Vx (R142). -/
  | ldBVx (x : RegId)
  /-- `FX55` LD [I], Vx (R144). -/
  | ldMemVx (x : RegId)
  /-- `FX65` LD Vx, [I] (R145). -/
  | ldVxMem (x : RegId)
  deriving DecidableEq, Repr

end Sys2Proof
end

