-- ==== Sys2Proof/WellFormed.lean ====
section
/-! DEFINITION. What is well formed: an instruction, an instruction word, a program image.
The bounds on an instruction's operands are carried by the types of its fields, so every term of
`Instr` is well formed and the checks that can refuse something are those on words (spec/30_encoding.md
R64, R65, R67) and on images (spec/49_host_interface.md R231). -/

namespace Sys2Proof

/-- A row of the opcode map: `word &&& mask = pattern` selects it (R64). -/
structure OpcodeRow where
  mask : Word
  pattern : Word
  deriving DecidableEq, Repr

/-- A word is selected by a row (R64). -/
def OpcodeRow.selects (row : OpcodeRow) (w : Word) : Bool := w &&& row.mask == row.pattern

/-- The mask and match columns of R65 for the tag of an instruction. -/
def opcodeRow : Instr → OpcodeRow
  | .cls => ⟨0xFFFF, 0x00E0⟩
  | .ret => ⟨0xFFFF, 0x00EE⟩
  | .jp _ => ⟨0xF000, 0x1000⟩
  | .call _ => ⟨0xF000, 0x2000⟩
  | .seImm _ _ => ⟨0xF000, 0x3000⟩
  | .sneImm _ _ => ⟨0xF000, 0x4000⟩
  | .seReg _ _ => ⟨0xF00F, 0x5000⟩
  | .ldImm _ _ => ⟨0xF000, 0x6000⟩
  | .addImm _ _ => ⟨0xF000, 0x7000⟩
  | .ldReg _ _ => ⟨0xF00F, 0x8000⟩
  | .orReg _ _ => ⟨0xF00F, 0x8001⟩
  | .andReg _ _ => ⟨0xF00F, 0x8002⟩
  | .xorReg _ _ => ⟨0xF00F, 0x8003⟩
  | .addReg _ _ => ⟨0xF00F, 0x8004⟩
  | .subReg _ _ => ⟨0xF00F, 0x8005⟩
  | .shr _ _ => ⟨0xF00F, 0x8006⟩
  | .subn _ _ => ⟨0xF00F, 0x8007⟩
  | .shl _ _ => ⟨0xF00F, 0x800E⟩
  | .sneReg _ _ => ⟨0xF00F, 0x9000⟩
  | .ldI _ => ⟨0xF000, 0xA000⟩
  | .jpV0 _ => ⟨0xF000, 0xB000⟩
  | .rnd _ _ => ⟨0xF000, 0xC000⟩
  | .drw _ _ _ => ⟨0xF000, 0xD000⟩
  | .skp _ => ⟨0xF0FF, 0xE09E⟩
  | .sknp _ => ⟨0xF0FF, 0xE0A1⟩
  | .ldVxDt _ => ⟨0xF0FF, 0xF007⟩
  | .ldVxK _ => ⟨0xF0FF, 0xF00A⟩
  | .ldDtVx _ => ⟨0xF0FF, 0xF015⟩
  | .ldStVx _ => ⟨0xF0FF, 0xF018⟩
  | .addIVx _ => ⟨0xF0FF, 0xF01E⟩
  | .ldFVx _ => ⟨0xF0FF, 0xF029⟩
  | .ldBVx _ => ⟨0xF0FF, 0xF033⟩
  | .ldMemVx _ => ⟨0xF0FF, 0xF055⟩
  | .ldVxMem _ => ⟨0xF0FF, 0xF065⟩

/-- The rows of R65 whose selection needs the whole word (group 0x0). -/
def opcodeRowsFix : List OpcodeRow := [⟨0xFFFF, 0x00E0⟩, ⟨0xFFFF, 0x00EE⟩]

/-- The rows of R65 selected by the top nibble alone. -/
def opcodeRowsGroup : List OpcodeRow :=
  [⟨0xF000, 0x1000⟩, ⟨0xF000, 0x2000⟩, ⟨0xF000, 0x3000⟩, ⟨0xF000, 0x4000⟩, ⟨0xF000, 0x6000⟩,
   ⟨0xF000, 0x7000⟩, ⟨0xF000, 0xA000⟩, ⟨0xF000, 0xB000⟩, ⟨0xF000, 0xC000⟩, ⟨0xF000, 0xD000⟩]

/-- The rows of R65 selected by the top and the low nibble (groups 0x5, 0x8, 0x9). -/
def opcodeRowsNibble : List OpcodeRow :=
  [⟨0xF00F, 0x5000⟩, ⟨0xF00F, 0x8000⟩, ⟨0xF00F, 0x8001⟩, ⟨0xF00F, 0x8002⟩, ⟨0xF00F, 0x8003⟩,
   ⟨0xF00F, 0x8004⟩, ⟨0xF00F, 0x8005⟩, ⟨0xF00F, 0x8006⟩, ⟨0xF00F, 0x8007⟩, ⟨0xF00F, 0x800E⟩,
   ⟨0xF00F, 0x9000⟩]

/-- The rows of R65 selected by the top nibble and the low byte (groups 0xE, 0xF). -/
def opcodeRowsByte : List OpcodeRow :=
  [⟨0xF0FF, 0xE09E⟩, ⟨0xF0FF, 0xE0A1⟩, ⟨0xF0FF, 0xF007⟩, ⟨0xF0FF, 0xF00A⟩, ⟨0xF0FF, 0xF015⟩,
   ⟨0xF0FF, 0xF018⟩, ⟨0xF0FF, 0xF01E⟩, ⟨0xF0FF, 0xF029⟩, ⟨0xF0FF, 0xF033⟩, ⟨0xF0FF, 0xF055⟩,
   ⟨0xF0FF, 0xF065⟩]

/-- The 34 rows of R65. -/
def opcodeRows : List OpcodeRow :=
  opcodeRowsFix ++ opcodeRowsGroup ++ opcodeRowsNibble ++ opcodeRowsByte

/-- A word is one of the 34 tags exactly when some row selects it (R64). -/
def wordWellFormed (w : Word) : Bool := opcodeRows.any (·.selects w)

/-- Every term of `Instr` is well formed: register indices are below 16 and immediates have their
field's width by the types of the fields (R10, R61, R63). There is nothing to refuse here; the checks
that refuse are `wordWellFormed` and `imageWellFormed`. -/
def Instr.wellFormed (_ : Instr) : Bool := true

/-- A program image fits the program area (R231). -/
def imageWellFormed (image : List Byte) : Bool := image.length ≤ Config.maxRom

end Sys2Proof
end

