-- ==== Sys2Proof/Decode.lean ====
section
/-! DEFINITION. The decoder, total on every word and on every list of bytes, and the encoder
(spec/30_encoding.md R60 to R68, spec/20_memory.md R52). -/

namespace Sys2Proof

/-- Why bytes are no instruction. -/
inductive DecodeError where
  /-- The word matches no row of R65 (R67). -/
  | invalidOpcode
  /-- Fewer than two bytes are there: no whole instruction word (R60). -/
  | truncated
  deriving DecidableEq, Repr

/-- `G`, bits 15:12 (R61). -/
def fieldG (w : Word) : Nat := (w >>> 12).toNat

/-- `NNN`, bits 11:0 (R61). -/
def fieldNNN (w : Word) : Addr := (w &&& 0x0FFF).setWidth 12

/-- `NN`, bits 7:0 (R61). -/
def fieldNN (w : Word) : Byte := (w &&& 0x00FF).setWidth 8

/-- `N`, bits 3:0 (R61). -/
def fieldN (w : Word) : Nibble := (w &&& 0x000F).setWidth 4

/-- `X`, bits 11:8: mask, then shift (R61; 90_conflicts.md C13). -/
def fieldX (w : Word) : RegId := (((w &&& 0x0F00) >>> 8).setWidth 4).toFin

/-- `Y`, bits 7:4: mask, then shift (R61; 90_conflicts.md C13). -/
def fieldY (w : Word) : RegId := (((w &&& 0x00F0) >>> 4).setWidth 4).toFin

/-- Group 0x8: the low nibble selects the tag (R64, R65 rows 10 to 18). -/
def decodeGroup8 (x y : RegId) : Nat → Except DecodeError Instr
  | 0x0 => .ok (.ldReg x y)
  | 0x1 => .ok (.orReg x y)
  | 0x2 => .ok (.andReg x y)
  | 0x3 => .ok (.xorReg x y)
  | 0x4 => .ok (.addReg x y)
  | 0x5 => .ok (.subReg x y)
  | 0x6 => .ok (.shr x y)
  | 0x7 => .ok (.subn x y)
  | 0xE => .ok (.shl x y)
  | _ => .error .invalidOpcode

/-- Group 0xE: the low byte selects the tag (R64, R65 rows 24 and 25). -/
def decodeGroupE (x : RegId) : Nat → Except DecodeError Instr
  | 0x9E => .ok (.skp x)
  | 0xA1 => .ok (.sknp x)
  | _ => .error .invalidOpcode

/-- Group 0xF: the low byte selects the tag (R64, R65 rows 26 to 34). -/
def decodeGroupF (x : RegId) : Nat → Except DecodeError Instr
  | 0x07 => .ok (.ldVxDt x)
  | 0x0A => .ok (.ldVxK x)
  | 0x15 => .ok (.ldDtVx x)
  | 0x18 => .ok (.ldStVx x)
  | 0x1E => .ok (.addIVx x)
  | 0x29 => .ok (.ldFVx x)
  | 0x33 => .ok (.ldBVx x)
  | 0x55 => .ok (.ldMemVx x)
  | 0x65 => .ok (.ldVxMem x)
  | _ => .error .invalidOpcode

/-- The decoder (R64, R65): the top nibble selects a group; groups 0x0, 0x5, 0x8, 0x9, 0xE and 0xF are
told apart by the low nibble, the low byte or (group 0x0, D2) the whole word. Total (R66). The bit
patterns are the spec's, from general knowledge (D1; log 1). PRESUMED. -/
def decodeWord (w : Word) : Except DecodeError Instr :=
  match fieldG w with
  | 0x0 =>
    if w = 0x00E0 then .ok .cls
    else if w = 0x00EE then .ok .ret
    else .error .invalidOpcode
  | 0x1 => .ok (.jp (fieldNNN w))
  | 0x2 => .ok (.call (fieldNNN w))
  | 0x3 => .ok (.seImm (fieldX w) (fieldNN w))
  | 0x4 => .ok (.sneImm (fieldX w) (fieldNN w))
  | 0x5 => if (fieldN w).toNat = 0 then .ok (.seReg (fieldX w) (fieldY w)) else .error .invalidOpcode
  | 0x6 => .ok (.ldImm (fieldX w) (fieldNN w))
  | 0x7 => .ok (.addImm (fieldX w) (fieldNN w))
  | 0x8 => decodeGroup8 (fieldX w) (fieldY w) (fieldN w).toNat
  | 0x9 => if (fieldN w).toNat = 0 then .ok (.sneReg (fieldX w) (fieldY w)) else .error .invalidOpcode
  | 0xA => .ok (.ldI (fieldNNN w))
  | 0xB => .ok (.jpV0 (fieldNNN w))
  | 0xC => .ok (.rnd (fieldX w) (fieldNN w))
  | 0xD => .ok (.drw (fieldX w) (fieldY w) (fieldN w))
  | 0xE => decodeGroupE (fieldX w) (fieldNN w).toNat
  | 0xF => decodeGroupF (fieldX w) (fieldNN w).toNat
  | _ => .error .invalidOpcode

/-- The instruction at the head of a byte list, and the bytes after it: two bytes, big-endian (R52, R60). -/
def decodeBytes : List Byte → Except DecodeError (Instr × List Byte)
  | hi :: lo :: rest =>
    match decodeWord (wordOf hi lo) with
    | .ok instr => .ok (instr, rest)
    | .error e => .error e
  | _ => .error .truncated

/-- Format A: group and `NNN` (R62). -/
def encodeA (g : Nat) (nnn : Addr) : Word := BitVec.ofNat 16 (g * 4096 + nnn.toNat)

/-- Formats XI and XS: group, `X` and a low byte (R62). -/
def encodeXI (g : Nat) (x : RegId) (nn : Byte) : Word :=
  BitVec.ofNat 16 (g * 4096 + x.val * 256 + nn.toNat)

/-- Formats XYN and XYS: group, `X`, `Y` and a low nibble (R62). -/
def encodeXYN (g : Nat) (x y : RegId) (n : Nibble) : Word :=
  BitVec.ofNat 16 (g * 4096 + x.val * 256 + y.val * 16 + n.toNat)

/-- The word of an instruction (R62, R65). -/
def encode : Instr → Word
  | .cls => 0x00E0
  | .ret => 0x00EE
  | .jp nnn => encodeA 0x1 nnn
  | .call nnn => encodeA 0x2 nnn
  | .seImm x nn => encodeXI 0x3 x nn
  | .sneImm x nn => encodeXI 0x4 x nn
  | .seReg x y => encodeXYN 0x5 x y 0x0
  | .ldImm x nn => encodeXI 0x6 x nn
  | .addImm x nn => encodeXI 0x7 x nn
  | .ldReg x y => encodeXYN 0x8 x y 0x0
  | .orReg x y => encodeXYN 0x8 x y 0x1
  | .andReg x y => encodeXYN 0x8 x y 0x2
  | .xorReg x y => encodeXYN 0x8 x y 0x3
  | .addReg x y => encodeXYN 0x8 x y 0x4
  | .subReg x y => encodeXYN 0x8 x y 0x5
  | .shr x y => encodeXYN 0x8 x y 0x6
  | .subn x y => encodeXYN 0x8 x y 0x7
  | .shl x y => encodeXYN 0x8 x y 0xE
  | .sneReg x y => encodeXYN 0x9 x y 0x0
  | .ldI nnn => encodeA 0xA nnn
  | .jpV0 nnn => encodeA 0xB nnn
  | .rnd x nn => encodeXI 0xC x nn
  | .drw x y n => encodeXYN 0xD x y n
  | .skp x => encodeXI 0xE x 0x9E
  | .sknp x => encodeXI 0xE x 0xA1
  | .ldVxDt x => encodeXI 0xF x 0x07
  | .ldVxK x => encodeXI 0xF x 0x0A
  | .ldDtVx x => encodeXI 0xF x 0x15
  | .ldStVx x => encodeXI 0xF x 0x18
  | .addIVx x => encodeXI 0xF x 0x1E
  | .ldFVx x => encodeXI 0xF x 0x29
  | .ldBVx x => encodeXI 0xF x 0x33
  | .ldMemVx x => encodeXI 0xF x 0x55
  | .ldVxMem x => encodeXI 0xF x 0x65

/-- The two bytes of an instruction in memory order, high byte first (R52). -/
def encodeBytes (instr : Instr) : List Byte := [highByte (encode instr), lowByte (encode instr)]

/-- The word of a table row given as a number of `nbits` bits; the bits above are 0. -/
def tableWord (nbits w : Nat) : Word := BitVec.ofNat 16 (w % 2 ^ nbits)

/-- What this decoder reads from an instruction whose bits are `w`, numbered as spec/opcode_table.json
numbers them: the word is laid out in memory order and decoded from its bytes. -/
def decodeTableWord (nbits w : Nat) : Option Instr :=
  match decodeBytes [highByte (tableWord nbits w), lowByte (tableWord nbits w)] with
  | .ok (instr, _) => some instr
  | .error _ => none

end Sys2Proof
end

