-- ==== Sys2Proof/Machine/State.lean ====
section
/-! DEFINITION. The state of CORE (spec/10_state.md), its statuses (spec/60_exceptions.md R251), the
reasons a step can stop, and the reset state (spec/70_reset_and_hazards.md R281). Plain data only. -/

namespace Sys2Proof.Machine

/-- Main memory (R40): the bytes that differ from what memory holds at reset, addresses rising
(log 32; the reading and writing of it are in Machine/Memory.lean). -/
abbrev Memory := List Host.Cell

/-- The framebuffer (R27, R150): 256 bytes, 8 a row, row-major. -/
abbrev Framebuffer := Vector Byte 256

/-- The statuses a cycle or a host operation returns (R251). -/
inductive Status where
  /-- Success. -/
  | ok
  /-- Unrecognized word (R253). -/
  | invalidOpcode
  /-- Address at or beyond memory size (R254). -/
  | memoryAddressNotFound
  /-- Bad register index: never returned, an index is a 4-bit field (R256; log 34). -/
  | registerNotFound
  /-- Value out of domain (R255). -/
  | invalidArguments
  /-- Call stack exhausted: not fatal to the cycle (R257). -/
  | stackOverflow
  /-- Return with empty stack (R258). -/
  | noCall
  /-- Program longer than `MAX_ROM`: of `load_program` only (R259). -/
  | romTooBig
  deriving DecidableEq, Repr

/-- The numeric codes of R251 (the spec's own, D20; log 20). -/
def Status.code : Status → Nat
  | .ok => 0
  | .invalidOpcode => 1
  | .memoryAddressNotFound => 2
  | .registerNotFound => 3
  | .invalidArguments => 4
  | .stackOverflow => 5
  | .noCall => 6
  | .romTooBig => 7

/-- What CORE holds. All fields but the last are the spec's (R10 to R28); `draws` is the model's own
(log 13). The parameters of R2 and the status a cycle returns are no state (R30). -/
structure State where
  /-- `R[0..15]` (R10); `R[15]` is VF (R13). -/
  r : Vector Byte 16
  /-- `I`, the index register, 12 bits (R20). -/
  i : Addr
  /-- `PC` (R16), never wrapped (R17; log 3). -/
  pc : Nat
  /-- `STACK[0..15]`, entries as wide as `PC` (R25). -/
  stack : Vector Nat 16
  /-- `SP`, 0 to 16 (R21). -/
  sp : Fin 17
  /-- `DT`, the delay timer (R22). -/
  dt : Byte
  /-- `ST`, the sound timer (R23). -/
  st : Byte
  /-- `WAIT`, the wait flag (R24). -/
  wait : Bool
  /-- `MEM[0..4095]` (R26, R40). -/
  mem : Memory
  /-- `FB[0..255]` (R27, R150). -/
  fb : Framebuffer
  /-- `KQ`, oldest first (R28, R170). -/
  kq : List Key
  /-- How many free values the run has consumed (log 13). -/
  draws : Nat
  deriving DecidableEq, Repr

/-- Why the machine stops: the errors that raise (R214). All are SAFE: the spec names each, says the
state is as before the cycle, and asks that a model end the run there (R219; log 31). -/
inductive Fault where
  /-- Raised by decode when the word matches no row (R253). Safe: the error is the spec's. -/
  | invalidOpcode
  /-- Raised by fetch, DRW, FX33, FX55, FX65 on an address at or past 4096 (R254). Safe: the error is
  the spec's. -/
  | memoryAddressNotFound
  /-- Raised by FX29 on a value above 15 (R255). Safe: the error is the spec's. -/
  | invalidArguments
  /-- Raised by RET on an empty stack (R258). Safe: `PC` is unspecified afterwards and a fault carries no
  state. -/
  | noCall
  deriving DecidableEq, Repr

/-- Why an instruction has no meaning. -/
inductive Refusal where
  /-- Answered by an arm of `exec` for an instruction not modelled yet: none is. Safe: it only stops. -/
  | notModelled (mnemonic : String)
  deriving DecidableEq, Repr

/-- The status a raising cycle returns for its error (R214, R251). -/
def Fault.status : Fault → Status
  | .invalidOpcode => .invalidOpcode
  | .memoryAddressNotFound => .memoryAddressNotFound
  | .invalidArguments => .invalidArguments
  | .noCall => .noCall

/-- What an execute step or a cycle answers. -/
abbrev Result := Host.Outcome State Fault Refusal

/-- The machine right after reset (R281): `PC` at the entry offset, memory as at reset (nothing listed),
everything else zero, empty or false (D18; DESIGN CHOICE, log 18), the model's own count of draws at its
start (log 13). -/
def State.reset : State where
  r := Vector.replicate 16 0
  i := 0
  pc := 0x200
  stack := Vector.replicate 16 0
  sp := 0
  dt := 0
  st := 0
  wait := false
  mem := []
  fb := Vector.replicate 256 0
  kq := []
  draws := 0

end Sys2Proof.Machine
end

