-- ==== Sys2Proof/Machine/Flags.lean ====
section
/-! DEFINITION. What each flag-writing instruction writes to VF, always exactly 0 or 1
(spec/10_state.md R13, R14). -/

namespace Sys2Proof.Machine

/-- A flag as the byte written to VF (R13). -/
def flagByte (b : Bool) : Byte := if b then 1 else 0

/-- The carry of an add: 1 if `a + b > 255` (R14, R126). -/
def carryOut (a b : Byte) : Byte := flagByte (decide (255 < a.toNat + b.toNat))

/-- The flag of a subtraction `a - b`: 0 if `b > a`, else 1 (R14, R127, R129; 90_conflicts.md C12). -/
def noBorrow (a b : Byte) : Byte := flagByte (!decide (a.toNat < b.toNat))

/-- The bit shifted out to the right (R14, R128). -/
def shiftedOutRight (a : Byte) : Byte := flagByte (a.getLsbD 0)

/-- The bit shifted out to the left (R14, R130). -/
def shiftedOutLeft (a : Byte) : Byte := flagByte (a.getLsbD 7)

/-- The collision flag of a draw (R14, R156). -/
def collisionFlag (hit : Bool) : Byte := flagByte hit

end Sys2Proof.Machine
end

