-- ==== Sys2Proof/Machine/KeyQueue.lean ====
section
/-! DEFINITION. The key queue, first in first out (spec/45_input.md R170 to R174). -/

namespace Sys2Proof.Machine

/-- `KQ.push(e)` on a queue of capacity `cap` (R171): "none" is no event, an event on a full queue is
dropped (D17; log 17). -/
def pushKey (cap : Nat) (q : List Key) : Option Key → List Key
  | none => q
  | some k => if q.length < cap then q ++ [k] else q

/-- What `KQ.peek()` and `KQ.pop()` answer: the oldest event, or "none" (R172, R173). -/
def oldestKey (q : List Key) : Option Key := q.head?

/-- What `KQ.pop()` leaves (R172). -/
def dropOldestKey (q : List Key) : List Key := q.tail

/-- A key as a register value: 0 to 15, zero-extended (R178). -/
def keyByte (k : Key) : Byte := k.setWidth 8

/-- `Match(e, v)` (R174): "none" matches no byte, a value above 15 matches no key (D16, D25; log 16). -/
def matchKey (e : Option Key) (v : Byte) : Bool :=
  match e with
  | none => false
  | some k => keyByte k == v

end Sys2Proof.Machine
end

