-- ==== Sys2Proof/Machine/Memory.lean ====
section
/-! DEFINITION. Main memory: what it holds at reset, reading and writing a byte, the canonical form, and
the access primitives with their bound (spec/20_memory.md R40 to R46, R52). -/

namespace Sys2Proof.Machine

/-- The glyphs of digits 0 to 7, five bytes each (R46, the default table; G13, log 19). PRESUMED. -/
def glyphsLow : List Byte :=
  [0xF0, 0x90, 0x90, 0x90, 0xF0] ++ [0x20, 0x60, 0x20, 0x20, 0x70] ++
  [0xF0, 0x10, 0xF0, 0x80, 0xF0] ++ [0xF0, 0x10, 0xF0, 0x10, 0xF0] ++
  [0x90, 0x90, 0xF0, 0x10, 0x10] ++ [0xF0, 0x80, 0xF0, 0x10, 0xF0] ++
  [0xF0, 0x80, 0xF0, 0x90, 0xF0] ++ [0xF0, 0x10, 0x20, 0x40, 0x40]

/-- The glyphs of digits 8 to F (R46, the default table; G13, log 19). PRESUMED. -/
def glyphsHigh : List Byte :=
  [0xF0, 0x90, 0xF0, 0x90, 0xF0] ++ [0xF0, 0x90, 0xF0, 0x10, 0xF0] ++
  [0xF0, 0x90, 0xF0, 0x90, 0x90] ++ [0xE0, 0x90, 0xE0, 0x90, 0xE0] ++
  [0xF0, 0x80, 0x80, 0x80, 0xF0] ++ [0xE0, 0x90, 0x90, 0x90, 0xE0] ++
  [0xF0, 0x80, 0xF0, 0x80, 0xF0] ++ [0xF0, 0x80, 0xF0, 0x80, 0x80]

/-- The default value of the parameter `GLYPHS`, the customary font (R46; G13, log 19). PRESUMED. No
meaning uses it: what stands at addresses 0 to 79 at reset is the parameter. -/
def defaultGlyphs : List Byte := glyphsLow ++ glyphsHigh

/-- The parameter `GLYPHS` has its default value: what a claim that depends on a glyph's bytes takes as a
premise (R46). -/
def GlyphsAreDefault : Prop := ∀ a < Config.glyphTableBytes, Config.glyph a = defaultGlyphs.getD a 0

/-- What an address holds that nothing has written: the reset contents, the parameter `GLYPHS` at 0 to 79
and 0 above (R41, R46, R281; log 19). -/
def resetByte (a : Nat) : Byte := if a < Config.glyphTableBytes then Config.glyph a else 0

/-- `MEM[a]` (R40). Total; an access past the end is stopped by the callers' bound (R42; log 32). -/
def Memory.read : Memory → Nat → Byte
  | [], a => resetByte a
  | (b, v) :: rest, a => if a = b then v else Memory.read rest a

/-- Put a byte at an address, keeping the canonical form. -/
def Memory.insert : Memory → Nat → Byte → Memory
  | [], a, v => if v = resetByte a then [] else [(a, v)]
  | (b, w) :: rest, a, v =>
    if a < b then
      if v = resetByte a then (b, w) :: rest else (a, v) :: (b, w) :: rest
    else if a = b then
      if v = resetByte a then rest else (a, v) :: rest
    else (b, w) :: Memory.insert rest a v

/-- `MEM[a] <- v` (R40). An address past the end is no address: nothing is written there; the callers'
bound stops such an access before it is made (R42; log 32). -/
def Memory.write (m : Memory) (a : Nat) (v : Byte) : Memory :=
  if a < Config.memSize then m.insert a v else m

/-- Bytes to ascending addresses from `a` (R45). -/
def Memory.writeBytes : Memory → Nat → List Byte → Memory
  | m, _, [] => m
  | m, a, v :: vs => Memory.writeBytes (m.write a v) (a + 1) vs

/-- `n` bytes from ascending addresses from `a` (R45). -/
def Memory.readBytes (m : Memory) (a : Nat) : Nat → List Byte
  | 0 => []
  | n + 1 => m.read a :: Memory.readBytes m (a + 1) n

/-- Every listed address is above `lo`, the addresses rise, each is in memory, and no listed byte is what
the address reads as unlisted. -/
def Memory.wfAbove : Nat → Memory → Bool
  | _, [] => true
  | lo, (a, v) :: rest =>
    decide (lo ≤ a) && decide (a < Config.memSize) && decide (v ≠ resetByte a) &&
      Memory.wfAbove (a + 1) rest

/-- The canonical form: equal memories are equal lists (log 32). -/
def Memory.wf (m : Memory) : Bool := Memory.wfAbove 0 m

/-- `MemRead(a, 1)` (R42): refused at or past 4096. -/
def memRead1 (m : Memory) (a : Nat) : Option Byte :=
  if a < Config.memSize then some (m.read a) else none

/-- `MemRead(a, 2)`, big-endian, used by fetch only (R42, R52). -/
def memRead2 (m : Memory) (a : Nat) : Option Word :=
  if a + 1 < Config.memSize then some (wordOf (m.read a) (m.read (a + 1))) else none

/-- `MemWrite(a, 1, v)` (R42): refused at or past 4096. -/
def memWrite1 (m : Memory) (a : Nat) (v : Byte) : Option Memory :=
  if a < Config.memSize then some (m.write a v) else none

end Sys2Proof.Machine
end

