-- ==== Sys2Proof/Machine/Ops.lean ====
section
/-! DEFINITION. The named operations over registers, the stack, the key queue and the environment that
the meanings share, and how an error leaves an execute step (spec/60_exceptions.md R250: an error is a
value; there is no trap entry and no return from one, R262). -/

namespace Sys2Proof.Machine

/-- `R[x]` (R10). -/
def getReg (s : State) (x : RegId) : Byte := s.r.get x

/-- `R[x] <- v` (R10). -/
def setReg (s : State) (x : RegId) (v : Byte) : State := { s with r := s.r.set x v x.isLt }

/-- `VF <- flag`, VF being `R[15]` (R13). -/
def setFlag (s : State) (flag : Byte) : State := setReg s Config.flagReg flag

/-- A primary result into `R[x]`, then the flag into `R[15]` as the last step (R15, R134). -/
def setRegThenFlag (s : State) (x : RegId) (v flag : Byte) : State := setFlag (setReg s x v) flag

/-- `I <- v` (R20). -/
def setIndex (s : State) (v : Addr) : State := { s with i := v }

/-- `DT <- v` (R22). -/
def setDelay (s : State) (v : Byte) : State := { s with dt := v }

/-- `ST <- v` (R23). -/
def setSound (s : State) (v : Byte) : State := { s with st := v }

/-- `WAIT <- b` (R24). -/
def setWait (s : State) (b : Bool) : State := { s with wait := b }

/-- The register file replaced as a whole, by a block load (R145). -/
def setRegs (s : State) (r : Vector Byte 16) : State := { s with r := r }

/-- Memory after the stores of an instruction or a load (R40). -/
def setMemory (s : State) (m : Memory) : State := { s with mem := m }

/-- The framebuffer after a clear or a draw (R27). -/
def setFramebuffer (s : State) (fb : Framebuffer) : State := { s with fb := fb }

/-- `pc <- target` (R100). -/
def jumpTo (s : State) (target : Nat) : State := { s with pc := target }

/-- A conditional skip adds 2 to `PC` during execute when it is taken; the driver adds its own 2
afterwards (R108). -/
def skipIf (taken : Bool) (s : State) : State :=
  if taken then { s with pc := s.pc + Config.insnBytes } else s

/-- `raise E` (R214, R250): the execute step ends in the error; the state is the one before the cycle and
the answer carries none (log 31). Shared by every raising instruction. -/
def raise (e : Fault) : Result := .fault e

/-- `report StackOverflow` (R101, R257): the status that pushing on this stack reports. It is an output of
the cycle, which goes on, and is held nowhere (R30, R217; log 8). -/
def pushStatus (s : State) : Status := if s.sp.val = 16 then .stackOverflow else .ok

/-- Push the current `PC`: on a full stack the top entry is overwritten and `SP` stays, else the entry is
written and `SP` incremented (R101). What it reports is `pushStatus`. -/
def pushPc (s : State) : State :=
  if h : s.sp.val = 16 then
    { s with stack := s.stack.set 15 s.pc }
  else
    { s with
      stack := s.stack.set s.sp.val s.pc (by omega)
      sp := ⟨s.sp.val + 1, by omega⟩ }

/-- Pop the top entry: none on an empty stack, else the entry and the state with `SP` decremented
(R102). -/
def popPc (s : State) : Option (Nat × State) :=
  if h : s.sp.val = 0 then none
  else some (s.stack.get ⟨s.sp.val - 1, by omega⟩, { s with sp := ⟨s.sp.val - 1, by omega⟩ })

/-- `KQ.pop()` on the machine: the answer and the state without the oldest event (R172). -/
def popKey (s : State) : Option Key × State :=
  (oldestKey s.kq, { s with kq := dropOldestKey s.kq })

/-- `draw_byte()` (R133): the next byte of the environment, a FREE VALUE (log 13). -/
def drawByte (s : State) : Byte × State :=
  (Config.randomByte s.draws, { s with draws := s.draws + 1 })

end Sys2Proof.Machine
end

