-- ==== Sys2Proof/Machine/Operands.lean ====
section
/-! DEFINITION. The operand forms: jump targets, the base-plus-offset address of a data access with its
range check, and the registers a block copy names (spec/41_control_transfer.md R103,
spec/43_memory_index.md R143 to R145). `R[X]`, `R[Y]` are `getReg`; `NN`, `NNN`, `N` are used as they
stand (R63). -/

namespace Sys2Proof.Machine

/-- An absolute address operand `NNN` as a jump target (R63, R100). -/
def absTarget (nnn : Addr) : Nat := nnn.toNat

/-- The target of a jump with offset, `NNN + R[0]`, not reduced (R103, D12; log 12). -/
def offsetTarget (s : State) (nnn : Addr) : Nat := nnn.toNat + (getReg s 0).toNat

/-- The effective address `I + k`, not reduced (R143). -/
def effAddr (s : State) (k : Nat) : Nat := s.i.toNat + k

/-- The `n` bytes from `I` are all in memory: the check a memory instruction makes before it changes
anything; with `n = 0` nothing is accessed and it holds (R43, D5; log 5). -/
def rangeInMemory (s : State) (n : Nat) : Bool := n == 0 || decide (effAddr s (n - 1) < Config.memSize)

/-- The values of `R[0]` to `R[x]` (R144). -/
def regsUpTo (s : State) (x : RegId) : List Byte := s.r.toList.take (x.val + 1)

/-- The register file after `R[k] <- MEM[base + k]` for `k = 0` to `x` (R145). -/
def loadRegs (m : Memory) (base : Nat) (x : RegId) (r : Vector Byte 16) : Vector Byte 16 :=
  Vector.ofFn fun k => if k ≤ x then m.read (base + k.val) else r.get k

end Sys2Proof.Machine
end

