-- ==== Sys2Proof/Machine/Arithmetic.lean ====
section
/-! DEFINITION. Register load, arithmetic, logic, shift and random instructions
(spec/42_register_arithmetic.md). Arithmetic is unsigned, modulo 256 (R132): it is that of `BitVec 8`. -/

namespace Sys2Proof.Machine

/-- `6XNN`: `R[X] <- NN` (R120; G6, log 33). -/
def execLdImm (x : RegId) (nn : Byte) (s : State) : Result := .next (setReg s x nn)

/-- `7XNN`: `R[X] <- (R[X] + NN) mod 256`, no flag (R121; D10, log 10). -/
def execAddImm (x : RegId) (nn : Byte) (s : State) : Result := .next (setReg s x (getReg s x + nn))

/-- `8XY0`: `R[X] <- R[Y]` (R122; G6, log 33). -/
def execLdReg (x y : RegId) (s : State) : Result := .next (setReg s x (getReg s y))

/-- `8XY1`: `R[X] <- R[X] | R[Y]`, no flag (R123; D10, log 10). -/
def execOr (x y : RegId) (s : State) : Result := .next (setReg s x (getReg s x ||| getReg s y))

/-- `8XY2`: `R[X] <- R[X] & R[Y]`, no flag (R124; D10, log 10). -/
def execAnd (x y : RegId) (s : State) : Result := .next (setReg s x (getReg s x &&& getReg s y))

/-- `8XY3`: `R[X] <- R[X] ^ R[Y]`, no flag (R125; D10, log 10). -/
def execXor (x y : RegId) (s : State) : Result := .next (setReg s x (getReg s x ^^^ getReg s y))

/-- `8XY4`: sum, then carry (R126, R134). -/
def execAddReg (x y : RegId) (s : State) : Result :=
  let a := getReg s x
  let b := getReg s y
  .next (setRegThenFlag s x (a + b) (carryOut a b))

/-- `8XY5`: `R[X] - R[Y]`, then not-borrow (R127, R134; G9, log 33). -/
def execSub (x y : RegId) (s : State) : Result :=
  let a := getReg s x
  let b := getReg s y
  .next (setRegThenFlag s x (a - b) (noBorrow a b))

/-- `8XY7`: `R[Y] - R[X]`, then not-borrow (R129, R134; G9, log 33). -/
def execSubn (x y : RegId) (s : State) : Result :=
  let a := getReg s x
  let b := getReg s y
  .next (setRegThenFlag s x (b - a) (noBorrow b a))

/-- `8XY6`: `R[X] >> 1`, then the old bit 0; `Y` is ignored (R128, R68; D9, log 9). -/
def execShr (x _y : RegId) (s : State) : Result :=
  let a := getReg s x
  .next (setRegThenFlag s x (a >>> 1) (shiftedOutRight a))

/-- `8XYE`: `R[X] << 1` mod 256, then the old bit 7; `Y` is ignored (R130, R68; D9, log 9). -/
def execShl (x _y : RegId) (s : State) : Result :=
  let a := getReg s x
  .next (setRegThenFlag s x (a <<< 1) (shiftedOutLeft a))

/-- `CXNN`: `R[X] <- r & NN` for a fresh drawn byte `r` (R131, R133; G11, log 13, log 33). -/
def execRnd (x : RegId) (nn : Byte) (s : State) : Result :=
  let drawn := drawByte s
  .next (setReg drawn.2 x (drawn.1 &&& nn))

end Sys2Proof.Machine
end

