-- ==== Sys2Proof/Machine/Control.lean ====
section
/-! DEFINITION. Control transfer instructions (spec/41_control_transfer.md). During execute `PC` is the
address of the instruction itself (R16). -/

namespace Sys2Proof.Machine

/-- `RET_ADVANCE`: bytes added to `PC` after a return, 0 in this spec (R2, R102; D6, log 6). -/
def retAdvance : Nat := 0

/-- `1NNN`: `pc <- NNN` (R100). -/
def execJp (nnn : Addr) (s : State) : Result := .next (jumpTo s (absTarget nnn))

/-- `2NNN`: push the current `PC`, then `pc <- NNN`; on a full stack control is transferred all the same,
and `execStatus` reports `StackOverflow` (R101, R257). -/
def execCall (nnn : Addr) (s : State) : Result := .next (jumpTo (pushPc s) (absTarget nnn))

/-- `00EE`: `pc` takes the popped entry, no advance; an empty stack raises `NoCall` (R102, R258). -/
def execRet (s : State) : Result :=
  match popPc s with
  | none => raise .noCall
  | some (target, popped) => .next (jumpTo popped (target + retAdvance))

/-- `BNNN`: `pc <- NNN + R[0]` (R103; D12, log 12). -/
def execJpV0 (nnn : Addr) (s : State) : Result := .next (jumpTo s (offsetTarget s nnn))

/-- `3XNN`: skip if `R[X] = NN` (R104; G12, log 33). -/
def execSeImm (x : RegId) (nn : Byte) (s : State) : Result := .next (skipIf (getReg s x == nn) s)

/-- `4XNN`: skip if `R[X] != NN` (R105; G12, log 33). -/
def execSneImm (x : RegId) (nn : Byte) (s : State) : Result := .next (skipIf (getReg s x != nn) s)

/-- `5XY0`: skip if `R[X] = R[Y]` (R106; G12, log 33). -/
def execSeReg (x y : RegId) (s : State) : Result := .next (skipIf (getReg s x == getReg s y) s)

/-- `9XY0`: skip if `R[X] != R[Y]` (R107; G12, log 33). -/
def execSneReg (x y : RegId) (s : State) : Result := .next (skipIf (getReg s x != getReg s y) s)

end Sys2Proof.Machine
end

