-- ==== Sys2Proof/Machine/Framebuffer.lean ====
section
/-! DEFINITION. The framebuffer: pixels in packed bytes, one sprite row at pixel level and at byte level,
a whole sprite, and clearing (spec/44_drawing.md R150 to R156). -/

namespace Sys2Proof.Machine

/-- The byte of pixel `(x, y)`: `(x div 8) + 8 y` of the coordinates wrapped into the grid (R150, R151). -/
def pixelByte (x y : Nat) : Fin 256 := ⟨x % 64 / 8 + 8 * (y % 32), by omega⟩

/-- The bit of pixel `(x, y)` inside its byte: the most significant bit is the leftmost pixel
(R150, D14; log 14). -/
def pixelBit (x : Nat) : Nat := 7 - x % 64 % 8

/-- `Pixel(x, y)` for any naturals (R151). -/
def getPixel (fb : Framebuffer) (x y : Nat) : Bool := (fb.get (pixelByte x y)).getLsbD (pixelBit x)

/-- `Pixel(x, y) <- Pixel(x, y) ^ 1` (R153). -/
def flipPixel (fb : Framebuffer) (x y : Nat) : Framebuffer :=
  fb.set (pixelByte x y) (fb.get (pixelByte x y) ^^^ (1#8 <<< pixelBit x)) (pixelByte x y).isLt

/-- One bit of a sprite row, `k` columns to the right of its left edge: a sprite bit of 1 flips its pixel
and collides when that pixel was set; a sprite bit of 0 does nothing (R153, R154). -/
def drawBit (b : Byte) (x y : Nat) (acc : Framebuffer × Bool) (k : Nat) : Framebuffer × Bool :=
  if b.getLsbD (7 - k) then (flipPixel acc.1 (x + k) y, acc.2 || getPixel acc.1 (x + k) y) else acc

/-- `DrawRow(x, y, b)` at pixel level (R153): the new framebuffer and whether a collision happened. -/
def drawRow (fb : Framebuffer) (x y : Nat) (b : Byte) : Framebuffer × Bool :=
  [0, 1, 2, 3, 4, 5, 6, 7].foldl (drawBit b x y) (fb, false)

/-- The left part of a row that starts `x mod 8` columns into a byte (R153, byte level). -/
def rowLeft (x : Nat) (b : Byte) : Byte := b >>> (x % 64 % 8)

/-- The right part of that row, 0 when the row is aligned (R153, byte level). -/
def rowRight (x : Nat) (b : Byte) : Byte := BitVec.ofNat 8 (b.toNat * 2 ^ (8 - x % 64 % 8))

/-- The byte to the right of the row's left byte, wrapping to column 0 of the same row
(R153, D15; log 15). -/
def rightByte (x y : Nat) : Fin 256 := ⟨(x % 64 / 8 + 1) % 8 + 8 * (y % 32), by omega⟩

/-- `DrawRow(x, y, b)` at byte level, which R153 says is equal to the pixel level. -/
def drawRowBytes (fb : Framebuffer) (x y : Nat) (b : Byte) : Framebuffer × Bool :=
  let left := fb.get (pixelByte x y)
  let right := fb.get (rightByte x y)
  ((fb.set (pixelByte x y) (left ^^^ rowLeft x b) (pixelByte x y).isLt).set (rightByte x y)
      (right ^^^ rowRight x b) (rightByte x y).isLt,
    decide (left &&& rowLeft x b ≠ 0 ∨ right &&& rowRight x b ≠ 0))

/-- Sprite rows from `(x, y)` downward: row `k` at `y + k`, the collisions accumulated (R156). -/
def drawSprite : Framebuffer → Nat → Nat → List Byte → Framebuffer × Bool
  | fb, _, _, [] => (fb, false)
  | fb, x, y, b :: rows =>
    let first := drawRow fb x y b
    let rest := drawSprite first.1 x (y + 1) rows
    (rest.1, first.2 || rest.2)

/-- Every pixel 0 (R155). -/
def clearedFramebuffer : Framebuffer := Vector.replicate 256 0

end Sys2Proof.Machine
end

