-- ==== Sys2Proof/Machine/Drawing.lean ====
section
/-! DEFINITION. Clear and sprite draw (spec/44_drawing.md). -/

namespace Sys2Proof.Machine

/-- `00E0`: every framebuffer byte 0, no flag (R155; G5, D30, log 10, log 33). -/
def execCls (s : State) : Result := .next (setFramebuffer s clearedFramebuffer)

/-- `DXYN`: `N` sprite rows from `MEM[I]` XORed at `(R[X], R[Y])`, then VF = collision. The coordinates are
read first; the range is checked before anything changes; with `N = 0` nothing is drawn and VF becomes 0
(R156; D5, D15, D32; log 5, log 15, log 29). -/
def execDrw (x y : RegId) (n : Nibble) (s : State) : Result :=
  if rangeInMemory s n.toNat then
    let rows := s.mem.readBytes (effAddr s 0) n.toNat
    let drawn := drawSprite s.fb (getReg s x).toNat (getReg s y).toNat rows
    .next (setFlag (setFramebuffer s drawn.1) (collisionFlag drawn.2))
  else raise .memoryAddressNotFound

end Sys2Proof.Machine
end

