-- ==== Sys2Proof/Machine/IndexMemory.lean ====
section
/-! DEFINITION. Index register and memory instructions, and the glyph address lookup
(spec/43_memory_index.md, spec/47_glyph_lookup.md). -/

namespace Sys2Proof.Machine

/-- `ANNN`: `I <- NNN` (R140). -/
def execLdI (nnn : Addr) (s : State) : Result := .next (setIndex s nnn)

/-- `FX1E`: `I <- (I + R[X]) mod 4096`, no flag (R141; D4, log 4). -/
def execAddIVx (x : RegId) (s : State) : Result :=
  .next (setIndex s (s.i + (getReg s x).setWidth 12))

/-- `FX29`: `I <- 5 R[X]`; a value above 15 raises `InvalidArguments` (R200, R255; D25, log 25). -/
def execLdFVx (x : RegId) (s : State) : Result :=
  if 15 < (getReg s x).toNat then raise .invalidArguments
  else .next (setIndex s (BitVec.ofNat 12 (5 * (getReg s x).toNat)))

/-- The decimal digits of a byte, hundreds first (R142). -/
def bcdDigits (v : Byte) : List Byte :=
  [BitVec.ofNat 8 (v.toNat / 100), BitVec.ofNat 8 (v.toNat / 10 % 10), BitVec.ofNat 8 (v.toNat % 10)]

/-- `FX33`: the three digits of `R[X]` to `MEM[I]`, `MEM[I+1]`, `MEM[I+2]`; the range is checked first
(R142, R43; D5, log 5; `I` unchanged, D11, log 11). -/
def execLdBVx (x : RegId) (s : State) : Result :=
  if rangeInMemory s 3 then
    .next (setMemory s (s.mem.writeBytes (effAddr s 0) (bcdDigits (getReg s x))))
  else raise .memoryAddressNotFound

/-- `FX55`: `R[0..X]` to memory from `I`; the range is checked first (R144, R43; D5, log 5; `I`
unchanged, D11, log 11). -/
def execLdMemVx (x : RegId) (s : State) : Result :=
  if rangeInMemory s (x.val + 1) then
    .next (setMemory s (s.mem.writeBytes (effAddr s 0) (regsUpTo s x)))
  else raise .memoryAddressNotFound

/-- `FX65`: `R[0..X]` from memory from `I`; the range is checked first (R145, R43; D5, log 5; `I`
unchanged, D11, log 11). -/
def execLdVxMem (x : RegId) (s : State) : Result :=
  if rangeInMemory s (x.val + 1) then
    .next (setRegs s (loadRegs s.mem (effAddr s 0) x s.r))
  else raise .memoryAddressNotFound

end Sys2Proof.Machine
end

