-- ==== Sys2Proof/Machine/Input.lean ====
section
/-! DEFINITION. Key skips and wait for key (spec/45_input.md). Every look consumes the oldest event
(R288). -/

namespace Sys2Proof.Machine

/-- `EX9E`: pop the oldest event; skip if it is `R[X]` (R176). -/
def execSkp (x : RegId) (s : State) : Result :=
  let popped := popKey s
  .next (skipIf (matchKey popped.1 (getReg s x)) popped.2)

/-- `EXA1`: pop the oldest event; skip if it is not `R[X]`, an empty queue included (R177; D16,
log 16). -/
def execSknp (x : RegId) (s : State) : Result :=
  let popped := popKey s
  .next (skipIf (!matchKey popped.1 (getReg s x)) popped.2)

/-- `FX0A`: with an event pending, consume it into `R[X]` and clear `WAIT`; with none, set `WAIT` and
change nothing else (R178, R179). -/
def execLdVxK (x : RegId) (s : State) : Result :=
  let popped := popKey s
  match popped.1 with
  | some k => .next (setWait (setReg popped.2 x (keyByte k)) false)
  | none => .next (setWait popped.2 true)

end Sys2Proof.Machine
end

