-- ==== Sys2Proof/Machine/Timers.lean ====
section
/-! DEFINITION. Timer instructions and the countdown (spec/46_timers.md). -/

namespace Sys2Proof.Machine

/-- `FX07`: `R[X] <- DT` (R190). -/
def execLdVxDt (x : RegId) (s : State) : Result := .next (setReg s x s.dt)

/-- `FX15`: `DT <- R[X]` (R191). -/
def execLdDtVx (x : RegId) (s : State) : Result := .next (setDelay s (getReg s x))

/-- `FX18`: `ST <- R[X]` (R192). -/
def execLdStVx (x : RegId) (s : State) : Result := .next (setSound s (getReg s x))

/-- One tick of a timer: down by one, floored at zero (R193). -/
def tickTimer (t : Byte) : Byte := if t = 0 then 0 else t - 1

/-- The tick of both timers (R193). -/
def tickTimers (s : State) : State := { s with dt := tickTimer s.dt, st := tickTimer s.st }

end Sys2Proof.Machine
end

