-- ==== Sys2Proof/Machine/Driver.lean ====
section
/-! DEFINITION. The parts of the cycle driver around execute: fetch, the status a cycle reports, the
timer tick, the `PC` advance (spec/48_cycle_driver.md R210 to R217). -/

namespace Sys2Proof.Machine

/-- Fetch (R211): the word at `PC`, or none when `PC + 1 >= 4096`. -/
def fetch (s : State) : Option Word := memRead2 s.mem s.pc

/-- The status with which the execute step of an instruction that completes ends: `OK`, or what a CALL's
push reports (R210 step 3, R101, R217, R257). -/
def execStatus : Instr → State → Status
  | .jp _, _ => .ok
  | .call _, s => pushStatus s
  | .ret, _ => .ok
  | .jpV0 _, _ => .ok
  | .cls, _ => .ok
  | .seImm _ _, _ => .ok
  | .sneImm _ _, _ => .ok
  | .seReg _ _, _ => .ok
  | .sneReg _ _, _ => .ok
  | .ldImm _ _, _ => .ok
  | .addImm _ _, _ => .ok
  | .ldReg _ _, _ => .ok
  | .orReg _ _, _ => .ok
  | .andReg _ _, _ => .ok
  | .xorReg _ _, _ => .ok
  | .addReg _ _, _ => .ok
  | .subReg _ _, _ => .ok
  | .shr _ _, _ => .ok
  | .subn _ _, _ => .ok
  | .shl _ _, _ => .ok
  | .ldI _, _ => .ok
  | .rnd _ _, _ => .ok
  | .drw _ _ _, _ => .ok
  | .skp _, _ => .ok
  | .sknp _, _ => .ok
  | .ldVxDt _, _ => .ok
  | .ldVxK _, _ => .ok
  | .ldDtVx _, _ => .ok
  | .ldStVx _, _ => .ok
  | .addIVx _, _ => .ok
  | .ldFVx _, _ => .ok
  | .ldBVx _, _ => .ok
  | .ldMemVx _, _ => .ok
  | .ldVxMem _, _ => .ok

/-- The status of a cycle that completes from this state (R217): a function of the state before the cycle,
for the host (R30; log 8). -/
def reportedStatus (s : State) : Status :=
  match fetch s with
  | none => .ok
  | some w =>
    match decodeWord w with
    | .error _ => .ok
    | .ok instr => execStatus instr s

/-- `SetsPC(d)`: true exactly for JP, CALL, RET and JP_V0 (R108, R216; D12, log 12). -/
def setsPc : Instr → Bool
  | .jp _ => true
  | .call _ => true
  | .ret => true
  | .jpV0 _ => true
  | .cls => false
  | .seImm _ _ => false
  | .sneImm _ _ => false
  | .seReg _ _ => false
  | .sneReg _ _ => false
  | .ldImm _ _ => false
  | .addImm _ _ => false
  | .ldReg _ _ => false
  | .orReg _ _ => false
  | .andReg _ _ => false
  | .xorReg _ _ => false
  | .addReg _ _ => false
  | .subReg _ _ => false
  | .shr _ _ => false
  | .subn _ _ => false
  | .shl _ _ => false
  | .ldI _ => false
  | .rnd _ _ => false
  | .drw _ _ _ => false
  | .skp _ => false
  | .sknp _ => false
  | .ldVxDt _ => false
  | .ldVxK _ => false
  | .ldDtVx _ => false
  | .ldStVx _ => false
  | .addIVx _ => false
  | .ldFVx _ => false
  | .ldBVx _ => false
  | .ldMemVx _ => false
  | .ldVxMem _ => false

/-- The `PC` advance (R216): by 2, unless the instruction set `PC` or `WAIT` is 1, tested after execute
(R286; log 27). Not reduced (R17). -/
def advancePc (instr : Instr) (s : State) : State :=
  if setsPc instr || s.wait then s else { s with pc := s.pc + Config.insnBytes }

/-- Tick, then advance (R210 steps 4 and 5; 90_conflicts.md C14). -/
def endCycle (instr : Instr) (s : State) : State := advancePc instr (tickTimers s)

/-- A cycle whose execute step ended: an error leaves at once (R214), else the cycle is ended. -/
def finishCycle (instr : Instr) : Result → Result
  | .next s => .next (endCycle instr s)
  | .fault e => .fault e
  | .refused e => .refused e

/-- Place an instruction word where the next fetch reads: at `PC`, or, where no fetch is possible at
`PC`, at the entry offset with `PC` there (log 30). -/
def placeWord (s : State) (w : Word) : State :=
  let at_ := if s.pc + 1 < Config.memSize then s.pc else Config.entry
  { s with pc := at_, mem := s.mem.writeBytes at_ [highByte w, lowByte w] }

end Sys2Proof.Machine
end

