-- ==== Sys2Proof/Machine/Step.lean ====
section
/-! DEFINITION. One cycle of CORE (spec/48_cycle_driver.md R210), and placing an instruction where the
next cycle fetches it. -/

namespace Sys2Proof.Machine

/-- One cycle (R210): fetch, decode, execute, tick, advance. A raised error is a fault (R214, R219;
log 31); `StackOverflow` is a status of a cycle that completes, which `reportedStatus` gives the host
(R217; log 8). -/
def step (s : State) : Host.Outcome State Fault Refusal :=
  match fetch s with
  | none => raise .memoryAddressNotFound
  | some w =>
    match decodeWord w with
    | .error _ => raise .invalidOpcode
    | .ok instr => finishCycle instr (exec instr s)

/-- `s` with the instruction word `w` stored where `step` fetches next (log 30). -/
def State.withFetchWord (s : State) (nbits w : Nat) : State := placeWord s (tableWord nbits w)

end Sys2Proof.Machine
end

