-- ==== Sys2Proof/Machine/HostOps.lean ====
section
/-! DEFINITION. The operations the block offers its host, each one atomic step between two cycles
(spec/49_host_interface.md R230 to R238; log 21). -/

namespace Sys2Proof.Machine

/-- `init` (R230, R280): every piece of state at its reset value. The environment's draws go on: a reset
does not rewind them (R133; log 24). -/
def hostInit (s : State) : State := { State.reset with draws := s.draws }

/-- `load_program(b, len)` (R231): a program longer than `MAX_ROM` is refused with memory unchanged, else
its bytes are copied from 0x200 and nothing else changes (D24, D33; log 24, log 30). -/
def hostLoadProgram (image : List Byte) (s : State) : Status × State :=
  if imageWellFormed image then
    (.ok, setMemory s (s.mem.writeBytes Config.entry image))
  else (.romTooBig, s)

/-- What the host's `cycle` answers: a status, or the name of an instruction without a meaning (there is
none: `step` never refuses). -/
inductive CycleAnswer where
  /-- The status the cycle returns (R217). -/
  | status (status : Status)
  /-- `step` refused: never happens. -/
  | noMeaning (why : Refusal)
  deriving DecidableEq, Repr

/-- `cycle` (R232): one step and its status, which is an output and no state (R30, R217; log 8). A raised
error leaves the state as it was (R214, R252); after `NoCall` everything but `PC` is as it was and `PC` is a
FREE VALUE (R258, D7; log 7). -/
def hostCycle (s : State) : CycleAnswer × State :=
  match step s with
  | .next t => (.status (reportedStatus s), t)
  | .fault .noCall =>
    (.status .noCall, { s with pc := Config.noCallPc s.draws, draws := s.draws + 1 })
  | .fault e => (.status e.status, s)
  | .refused why => (.noMeaning why, s)

/-- `key_push(e)` (R233, R171). -/
def hostKeyPush (e : Option Key) (s : State) : State := { s with kq := pushKey Config.keyqCap s.kq e }

/-- `key_peek()` (R234, R173). -/
def hostKeyPeek (s : State) : Option Key := oldestKey s.kq

/-- `key_pop()` (R235, R172). -/
def hostKeyPop (s : State) : Option Key × State := popKey s

/-- `get_pixel(x, y)` (R236, R151). -/
def hostGetPixel (s : State) (x y : Nat) : Bool := getPixel s.fb x y

/-- `sound_active()`: `ST != 0` (R237, R23; D22, log 22). -/
def hostSoundActive (s : State) : Bool := s.st != 0

end Sys2Proof.Machine
end

