-- ==== Sys2Proof/Safety.lean ====
section
/-! DEFINITION. What claims are stated in terms of: the invariant of CORE's states, the states that
operations reach, the end of a run and its marks (spec/10_state.md R31, spec/48_cycle_driver.md R219,
R220, spec/60_exceptions.md R257). -/

namespace Sys2Proof.Safety

open Sys2Proof.Machine

/-- What holds of every state that operations reach (R31). The bounds on `I`, `SP`, the registers, the
timers and `WAIT` are carried by their types; the fields here are the rest, with the bound on the stack
entries that keeps the bound on `PC` (a `CALL` pushes a `PC` that was fetched from). -/
structure Inv (s : State) : Prop where
  pcBound : s.pc ≤ 0x10FE
  stackBound : ∀ k : Fin 16, s.stack.get k ≤ 0xFFE
  memCanonical : s.mem.wf = true
  queueBound : s.kq.length ≤ Config.keyqCap

/-- The states reached from reset by completed cycles and the host's operations (R31, R238). A raising
cycle leaves the state as it was, but for `PC` after `NoCall`, which ends the run (R219, R258; log 7). -/
inductive Reachable : State → Prop where
  | reset : Reachable State.reset
  | init {s : State} : Reachable s → Reachable (hostInit s)
  | load {s : State} (image : List Byte) : Reachable s → Reachable (hostLoadProgram image s).2
  | cycle {s t : State} : Reachable s → step s = .next t → Reachable t
  | push {s : State} (e : Option Key) : Reachable s → Reachable (hostKeyPush e s)
  | pop {s : State} : Reachable s → Reachable (hostKeyPop s).2

/-- A run has settled: the word at `PC` is a jump to `PC` itself (R220, D34). -/
def settled (s : State) : Bool :=
  match fetch s with
  | none => false
  | some w => decide (s.pc < 4096) && w == encode (.jp (BitVec.ofNat 12 s.pc))

/-- How a run of cycles ended: its last outcome, and the mark the spec asks a model to record when some
cycle reported `StackOverflow`, since a return address is lost (R257; 93_implementation_defined.md U5). -/
structure RunEnd where
  outcome : Result
  overflowed : Bool

/-- `n` cycles, stopping at the first fault, the mark accumulated (R219, R257). -/
def run : Nat → State → RunEnd
  | 0, s => ⟨.next s, false⟩
  | n + 1, s =>
    match step s with
    | .next t =>
      let rest := run n t
      ⟨rest.outcome, reportedStatus s == .stackOverflow || rest.overflowed⟩
    | .fault e => ⟨.fault e, false⟩
    | .refused e => ⟨.refused e, false⟩

/-- A run of `n` cycles is safe: no cycle raised and none lost a return address. -/
def safeRun (n : Nat) (s : State) : Bool :=
  match run n s with
  | ⟨.next _, false⟩ => true
  | _ => false

end Sys2Proof.Safety
end

