-- ==== Sys2Proof/Certificates/Slice0/Obligations.lean ====
section
/-! DEFINITION. The statements about CORE for the provers. Each docstring names the rule of spec/ it
formalises; where a clause rests on a decision of the spec (D<n>), on general knowledge (G<n>) or on a
choice of the model, it says so and names the log entry. -/

namespace Sys2Proof.Claims

open Sys2Proof.Machine

/-- The bytes at `PC` are in memory and decode to this instruction (R211, R212, R52). -/
def decodedAt (s : State) (instr : Instr) : Prop :=
  s.pc ≤ 4094 ∧ decodeBytes [s.mem.read s.pc, s.mem.read (s.pc + 1)] = .ok (instr, [])

/-- The number of the word at `PC`. -/
def wordAtPc (s : State) : Nat := (s.mem.read s.pc).toNat * 256 + (s.mem.read (s.pc + 1)).toNat

/-- Every byte of memory reads as before. -/
def sameBytes (s t : State) : Prop := ∀ a, t.mem.read a = s.mem.read a

/-- Nothing but the register file changed, and in it nothing but the registers of `written`. -/
def onlyRegs (s t : State) (written : List RegId) : Prop :=
  t = { s with r := t.r } ∧ sameBytes s t ∧ ∀ k, k ∉ written → getReg t k = getReg s k

/-- Nothing but memory changed, and in it nothing outside the `n` bytes from `base`. -/
def onlyBytes (s t : State) (base n : Nat) : Prop :=
  t = { s with mem := t.mem } ∧ t.mem.wf = true ∧
    ∀ a, ¬ (base ≤ a ∧ a < base + n) → t.mem.read a = s.mem.read a

/-- A state after the tick and the `PC` advance of a cycle whose execute step left `u`. -/
def endOfCycle (setsPC : Prop) [Decidable setsPC] (u : State) : State :=
  { u with
    dt := if u.dt = 0 then 0 else u.dt - 1
    st := if u.st = 0 then 0 else u.st - 1
    pc := if setsPC ∨ u.wait = true then u.pc else u.pc + 2 }

/-- The four tags that set `PC` (R108; JP_V0 by D12, log 12). -/
abbrev isJumpCallOrReturn (instr : Instr) : Bool :=
  match instr with
  | .jp _ => true
  | .call _ => true
  | .ret => true
  | .jpV0 _ => true
  | _ => false

/-- The six conditional skips (R104 to R107, R176, R177). -/
abbrev isSkip (instr : Instr) : Bool :=
  match instr with
  | .seImm _ _ => true
  | .sneImm _ _ => true
  | .seReg _ _ => true
  | .sneReg _ _ => true
  | .skp _ => true
  | .sknp _ => true
  | _ => false

/-- The registers an instruction may write (R10, R14, R120 to R131, R145, R156, R178, R190). -/
def destinations : Instr → List RegId
  | .ldImm x _ | .addImm x _ | .ldReg x _ | .orReg x _ | .andReg x _ | .xorReg x _ | .rnd x _
  | .ldVxDt x | .ldVxK x => [x]
  | .addReg x _ | .subReg x _ | .shr x _ | .subn x _ | .shl x _ => [x, 15]
  | .drw _ _ _ => [15]
  | .ldVxMem x => (List.finRange 16).filter (· ≤ x)
  | _ => []

/-- A set bit of the sprite of a draw of `n` rows lies on the pixel `(px, py)`: row `row` of the sprite is
at `y0 + row`, its column `k` at `x0 + k`, both wrapped (R156, R153; D14, D15). -/
def spriteCovers (s : State) (x0 y0 n px py : Nat) : Prop :=
  ∃ row < n, ∃ k < 8, (s.mem.read (effAddr s row)).getLsbD (7 - k) = true ∧
    px % 64 = (x0 + k) % 64 ∧ py % 32 = (y0 + row) % 32

/-- Some set bit of the sprite of a draw meets a pixel that is `lit` (R154, R157). -/
def spriteMeets (s : State) (x0 y0 n : Nat) (lit : Bool) : Prop :=
  ∃ row < n, ∃ k < 8, (s.mem.read (effAddr s row)).getLsbD (7 - k) = true ∧
    getPixel s.fb (x0 + k) (y0 + row) = lit

/-- Pushing each of these addresses in turn, as nested CALLs standing there do (R101). -/
def pushAll : State → List Nat → State
  | s, [] => s
  | s, pc :: pcs => pushAll (pushPc { s with pc := pc }) pcs

/-- Popping `n` times, as `n` RETs do: what was popped, in order, or none if a pop met an empty stack
(R102). -/
def popAll : Nat → State → Option (List Nat × State)
  | 0, s => some ([], s)
  | n + 1, s =>
    match popPc s with
    | none => none
    | some (pc, t) =>
      match popAll n t with
      | none => none
      | some (pcs, u) => some (pc :: pcs, u)

/-- Two states agree but for the values the environment supplies. -/
def setDraws (d : Nat) : Result → Result
  | .next t => .next { t with draws := d }
  | .fault e => .fault e
  | .refused e => .refused e

end Sys2Proof.Claims

open Sys2Proof Sys2Proof.Machine Sys2Proof.Claims Sys2Proof.Safety

/-! ### Encoding -/

/-- Decoding the bytes of any instruction, whatever follows them, gives the instruction back (R61, R62,
R65; the patterns are D1, log 1). -/
def Obligations.DecodeOfEncodedBytes : Prop :=
  ∀ (instr : Instr) (rest : List Byte), decodeBytes (encodeBytes instr ++ rest) = .ok (instr, rest)

/-- A word that decodes is the encoding of what it decodes to: no bit of it is dropped, the ignored `Y` of
SHR and SHL included (R66, R68). -/
def Obligations.EncodeOfDecodedWord : Prop :=
  ∀ (w : Word) (instr : Instr), decodeWord w = .ok instr → encode instr = w

/-- A word decodes exactly when a row of the opcode map selects it, at most one row does, and it is the
row of the tag it decodes to (R64, R65; the rows are D1, log 1). -/
def Obligations.OneRowSelectsEachDecodedWord : Prop :=
  ∀ w : Word,
    ((∃ instr, decodeWord w = .ok instr) ↔ wordWellFormed w = true) ∧
    (opcodeRows.filter (·.selects w)).length ≤ 1 ∧
    ∀ instr, decodeWord w = .ok instr → opcodeRow instr ∈ opcodeRows ∧ (opcodeRow instr).selects w = true

/-- The invalid words are exactly those of R67's table, group by group, with the two exact words of group
0x0 (D2, log 2). -/
def Obligations.InvalidWordsByGroup : Prop :=
  ∀ w : Word,
    decodeWord w = .error .invalidOpcode ↔
      (w.toNat / 4096 = 0x0 ∧ w.toNat ≠ 0x00E0 ∧ w.toNat ≠ 0x00EE) ∨
      (w.toNat / 4096 = 0x5 ∧ w.toNat % 16 ≠ 0) ∨
      (w.toNat / 4096 = 0x8 ∧ w.toNat % 16 ∈ [0x8, 0x9, 0xA, 0xB, 0xC, 0xD, 0xF]) ∨
      (w.toNat / 4096 = 0x9 ∧ w.toNat % 16 ≠ 0) ∨
      (w.toNat / 4096 = 0xE ∧ w.toNat % 256 ∉ [0x9E, 0xA1]) ∨
      (w.toNat / 4096 = 0xF ∧
        w.toNat % 256 ∉ [0x07, 0x0A, 0x15, 0x18, 0x1E, 0x29, 0x33, 0x55, 0x65])

/-- The instances of 95_test_vectors.md E1, and one word of each family, decode to the instruction they
stand for (R61, R65; the patterns are D1, log 1, and `0x0123` is D2, log 2). -/
def Obligations.SampleWordsDecode : Prop :=
  decodeWord 0xD12F = .ok (.drw 1 2 15) ∧ decodeWord 0x8AB4 = .ok (.addReg 10 11) ∧
  decodeWord 0xF933 = .ok (.ldBVx 9) ∧ decodeWord 0x1FFF = .ok (.jp 0xFFF) ∧
  decodeWord 0x00E0 = .ok .cls ∧ decodeWord 0xE19E = .ok (.skp 1) ∧
  decodeWord 0xF515 = .ok (.ldDtVx 5) ∧ decodeWord 0xF229 = .ok (.ldFVx 2) ∧
  decodeWord 0x0123 = .error .invalidOpcode

/-! ### The cycle driver -/

/-- When the bytes at `PC` decode to an instruction, the cycle executes it, ticks both timers, and adds 2 to
`PC` unless the instruction set it or `WAIT` is 1; an error of the execute step is the cycle's error
(R210, R212 to R216; JP_V0 sets `PC` by D12, log 12). -/
def Obligations.StepRunsTheDecodedInstruction : Prop :=
  ∀ (s : State) (instr : Instr), decodedAt s instr →
    (∀ u, exec instr s = .next u → step s = .next (endOfCycle (isJumpCallOrReturn instr = true) u)) ∧
    (∀ e, exec instr s = .fault e → step s = .fault e)

/-- Fetch reads the two bytes at `PC`, the one at `PC` high, and fails when `PC + 1` is past memory
(R211). -/
def Obligations.FetchReadsTheWordAtPc : Prop :=
  ∀ s : State,
    (s.pc + 1 < 4096 → ∃ w, fetch s = some w ∧
      w.toNat = (s.mem.read s.pc).toNat * 256 + (s.mem.read (s.pc + 1)).toNat) ∧
    (4096 ≤ s.pc + 1 → fetch s = none ∧ step s = .fault .memoryAddressNotFound)

/-- `InvalidOpcode` is raised exactly when a word is fetched that matches no row, and the state is left as
it was (R253). -/
def Obligations.InvalidOpcodeExactlyOnUnmatchedWords : Prop :=
  ∀ s : State,
    (step s = .fault .invalidOpcode ↔
      s.pc ≤ 4094 ∧ wordWellFormed (BitVec.ofNat 16 (wordAtPc s)) = false) ∧
    (step s = .fault .invalidOpcode → hostCycle s = (.status .invalidOpcode, s))

/-- `MemoryAddressNotFound` is raised exactly by a fetch at `PC >= 4095`, by DRW with `N > 0` and
`I + N - 1 >= 4096`, by FX33 with `I + 2 >= 4096`, and by FX55 and FX65 with `I + X >= 4096`
(R254; the whole-range check is D5, log 5). -/
def Obligations.AddressErrorExactlyPastMemory : Prop :=
  ∀ s : State,
    step s = .fault .memoryAddressNotFound ↔
      4095 ≤ s.pc ∨
      (∃ x y n, decodedAt s (.drw x y n) ∧ 0 < n.toNat ∧ 4096 ≤ s.i.toNat + n.toNat - 1) ∨
      (∃ x, decodedAt s (.ldBVx x) ∧ 4096 ≤ s.i.toNat + 2) ∨
      (∃ x, decodedAt s (.ldMemVx x) ∧ 4096 ≤ s.i.toNat + x.val) ∨
      (∃ x, decodedAt s (.ldVxMem x) ∧ 4096 ≤ s.i.toNat + x.val)

/-- `InvalidArguments` is raised exactly by FX29 with `R[X] > 15` (R255). -/
def Obligations.InvalidArgumentsExactlyOnGlyphAbove15 : Prop :=
  ∀ s : State,
    step s = .fault .invalidArguments ↔
      ∃ x, decodedAt s (.ldFVx x) ∧ 15 < (getReg s x).toNat

/-- `NoCall` is raised exactly by RET on an empty stack; the host's `cycle` then leaves every piece of
state but `PC` as it was (R258, D7; `PC` is a free value and the count of free values goes on, the
model's choice, log 7). -/
def Obligations.NoCallExactlyOnEmptyReturn : Prop :=
  ∀ s : State,
    (step s = .fault .noCall ↔ decodedAt s .ret ∧ s.sp = 0) ∧
    (step s = .fault .noCall →
      ∃ p, hostCycle s = (.status .noCall, { s with pc := p, draws := s.draws + 1 }))

/-- Every cycle ends in a next state or in one of the four errors: no instruction is refused (R221, and the
34 arms of `exec`). -/
def Obligations.EveryCycleEnds : Prop :=
  ∀ s : State,
    (∃ t, step s = .next t) ∨ step s = .fault .invalidOpcode ∨
      step s = .fault .memoryAddressNotFound ∨ step s = .fault .invalidArguments ∨
      step s = .fault .noCall

/-- A cycle returns exactly one status, `OK`, `StackOverflow` or one of the four raising errors; a cycle
that completes returns one of the first two and leaves exactly the next state of the step, in which no
status is held, and a cycle that raises returns its error (R217, R30, R214; that a `StackOverflow` cycle
completes is D8, log 8). -/
def Obligations.OneStatusAndItIsNotRead : Prop :=
  ∀ s : State,
    (∃ e, (hostCycle s).1 = .status e ∧
      e ∈ [Status.ok, .stackOverflow, .invalidOpcode, .memoryAddressNotFound, .invalidArguments,
        .noCall]) ∧
    (∀ t, step s = .next t →
      hostCycle s = (.status .ok, t) ∨ hostCycle s = (.status .stackOverflow, t)) ∧
    (∀ e, step s = .fault e → (hostCycle s).1 = .status e.status)

/-- The status of a completed cycle is `StackOverflow` when it executed a CALL with a full stack, and `OK`
otherwise (R217, R257; that such a cycle completes is D8, log 8). -/
def Obligations.StackOverflowExactlyOnFullCall : Prop :=
  ∀ s t : State, step s = .next t →
    ((∃ nnn, decodedAt s (.call nnn)) ∧ s.sp = 16 → hostCycle s = (.status .stackOverflow, t)) ∧
    (¬ ((∃ nnn, decodedAt s (.call nnn)) ∧ s.sp = 16) → hostCycle s = (.status .ok, t))

/-- After an error the state is as before the cycle, for `NoCall` but for `PC`; a `StackOverflow` cycle
completed; `ROMTooBig` leaves memory unchanged (R252; `PC` after `NoCall` is D7, log 7, that the overflowing
cycle completes D8, log 8, and `draws` the model's own count, log 13). -/
def Obligations.ErrorsLeaveTheState : Prop :=
  ∀ s : State,
    (∀ e ∈ [Status.invalidOpcode, .memoryAddressNotFound, .invalidArguments],
      (hostCycle s).1 = .status e → (hostCycle s).2 = s) ∧
    ((hostCycle s).1 = .status .noCall →
      ∃ p, (hostCycle s).2 = { s with pc := p, draws := s.draws + 1 }) ∧
    ((hostCycle s).1 = .status .stackOverflow → step s = .next (hostCycle s).2) ∧
    ∀ image, (hostLoadProgram image s).1 = .romTooBig → (hostLoadProgram image s).2 = s

/-- In every completed cycle each timer, as the instruction left it, goes down by one, floored at zero,
whichever instruction executed (R193). -/
def Obligations.TimersTickInEveryCompletedCycle : Prop :=
  ∀ (s t : State) (instr : Instr), decodedAt s instr → step s = .next t →
    t.dt.toNat = (match instr with | .ldDtVx x => getReg s x | _ => s.dt).toNat - 1 ∧
    t.st.toNat = (match instr with | .ldStVx x => getReg s x | _ => s.st).toNat - 1

/-- With `WAIT = 0`, every completed cycle of an instruction that is no jump, call, return, skip or wait
for key adds 2 to `PC`, unreduced; with `WAIT = 1` it holds `PC`, and a skip then adds its own 2 or
nothing (R216, R286; D27, log 27). -/
def Obligations.PcAdvancesByTwoUnlessWaiting : Prop :=
  ∀ (s t : State) (instr : Instr), decodedAt s instr → step s = .next t →
    isJumpCallOrReturn instr = false → (∀ x, instr ≠ .ldVxK x) →
    (isSkip instr = false → t.pc = if s.wait then s.pc else s.pc + 2) ∧
    (isSkip instr = true → s.wait = true → t.pc = s.pc ∨ t.pc = s.pc + 2) ∧
    (isSkip instr = true → s.wait = false → t.pc = s.pc + 2 ∨ t.pc = s.pc + 4)

/-- The wait-flag state machine: with an event pending LD Vx, K stores it, clears `WAIT` and advances; with
none it sets `WAIT`, holds `PC` and the timers tick; any other instruction leaves `WAIT`; a push leaves it
and the queue grows if it has room; `init` clears it (R179's table; that another instruction leaves
`WAIT = 1` too is D27, log 27; the capacity is D17, log 17). -/
def Obligations.WaitFlagStateMachine : Prop :=
  (∀ (s t : State) (x : RegId) (k : Key) (q : List Key), decodedAt s (.ldVxK x) → s.kq = k :: q →
    step s = .next t → t.wait = false ∧ (getReg t x).toNat = k.toNat ∧ t.kq = q ∧ t.pc = s.pc + 2) ∧
  (∀ (s t : State) (x : RegId), decodedAt s (.ldVxK x) → s.kq = [] →
    step s = .next t → t.wait = true ∧ t.r = s.r ∧ t.kq = [] ∧ t.pc = s.pc ∧
      t.dt.toNat = s.dt.toNat - 1 ∧ t.st.toNat = s.st.toNat - 1) ∧
  (∀ (s t : State) (instr : Instr), decodedAt s instr → (∀ x, instr ≠ .ldVxK x) →
    step s = .next t → t.wait = s.wait) ∧
  (∀ (s : State) (k : Key), (hostKeyPush (some k) s).wait = s.wait ∧
    (s.kq.length < Config.keyqCap → (hostKeyPush (some k) s).kq = s.kq ++ [k])) ∧
  (∀ s : State, (hostInit s).wait = false)

/-- Once the word at `PC` is a jump to `PC` itself, a cycle returns `OK`, changes nothing but the timers
and is settled again (R220; the notion is the spec's own, D34, log 35). -/
def Obligations.SettledCyclesOnlyTick : Prop :=
  ∀ s : State, settled s = true →
    ∃ t, step s = .next t ∧ hostCycle s = (.status .ok, t) ∧ settled t = true ∧
      t = { s with dt := t.dt, st := t.st } ∧
      t.dt.toNat = s.dt.toNat - 1 ∧ t.st.toNat = s.st.toNat - 1

/-- But for RND, neither the execute step of an instruction nor the step that runs it depends on the
environment's bytes: from another position in the stream of draws each does the same, and leaves the
position where it was (R218; the stream is D13, log 13). -/
def Obligations.OnlyRndReadsTheEnvironment : Prop :=
  ∀ (s : State) (instr : Instr) (d : Nat), (∀ x nn, instr ≠ .rnd x nn) →
    exec instr { s with draws := d } = setDraws d (exec instr s) ∧
    (decodedAt s instr → step { s with draws := d } = setDraws d (step s))

/-! ### Invariants and frames over all instructions -/

/-- The invariant of CORE's states is kept by every completed cycle: the bounds on `PC` and the queue (R31),
the bound on the stack entries that the bound on `PC` rests on (R101 pushes a `PC` that was fetched
from), and the canonical form of memory, which is the model's (log 32). -/
def Obligations.EveryCycleKeepsInv : Prop :=
  ∀ s t : State, Inv s → step s = .next t → Inv t

/-- The invariant of CORE's states holds at reset: the bounds of R31, on a zero stack and an empty queue
(D18, log 18), and the canonical form of memory, which is the model's (log 32). -/
def Obligations.ResetMeetsInv : Prop := Inv State.reset

/-- In every state that completed cycles and the host's operations reach, `I`, `SP`, the registers, the
timers, the queue and `PC` are in their ranges, and a cycle that completed started with `PC <= 4094` (R31);
memory is in its canonical form, which is the model's (log 32). -/
def Obligations.ReachableStatesAreInRange : Prop :=
  ∀ s : State, Reachable s →
    s.i.toNat ≤ 4095 ∧ s.sp.val ≤ 16 ∧ (∀ x, (getReg s x).toNat ≤ 255) ∧ s.dt.toNat ≤ 255 ∧
    s.st.toNat ≤ 255 ∧ s.kq.length ≤ Config.keyqCap ∧ (∀ k ∈ s.kq, k.toNat ≤ 15) ∧
    s.pc ≤ 0x10FE ∧ s.mem.wf = true ∧ ∀ t, step s = .next t → s.pc ≤ 4094

/-- What each instruction leaves alone in the execute step, piece of state by piece: memory (byte by byte)
changes only by FX33 and FX55; the framebuffer only by CLS and DRW; `I` only by ANNN, FX1E and FX29; the
stack only by CALL, `SP` only by CALL and RET; `DT` only by FX15; `ST` only by FX18; `WAIT` only by FX0A;
the queue only by SKP, SKNP and FX0A; `PC` only by jumps, calls, returns and skips; the count of draws only by RND; a register only by an
instruction that names it as a destination; and only CALL reports a status (R10 to R29; D10, D11, D30, log 10, log 11). -/
def Obligations.EachPieceChangesOnlyByItsInstructions : Prop :=
  ∀ (instr : Instr) (s t : State), exec instr s = .next t →
    ((∀ x, instr ≠ .ldBVx x ∧ instr ≠ .ldMemVx x) → sameBytes s t ∧ t.mem = s.mem) ∧
    ((∀ x y n, instr ≠ .cls ∧ instr ≠ .drw x y n) → t.fb = s.fb) ∧
    ((∀ a x, instr ≠ .ldI a ∧ instr ≠ .addIVx x ∧ instr ≠ .ldFVx x) → t.i = s.i) ∧
    ((∀ a, instr ≠ .call a) → t.stack = s.stack ∧ execStatus instr s = .ok) ∧
    ((∀ a, instr ≠ .call a ∧ instr ≠ .ret) → t.sp = s.sp) ∧
    ((∀ x, instr ≠ .ldDtVx x) → t.dt = s.dt) ∧
    ((∀ x, instr ≠ .ldStVx x) → t.st = s.st) ∧
    ((∀ x, instr ≠ .ldVxK x) → t.wait = s.wait) ∧
    ((∀ x, instr ≠ .skp x ∧ instr ≠ .sknp x ∧ instr ≠ .ldVxK x) → t.kq = s.kq) ∧
    (isJumpCallOrReturn instr = false → isSkip instr = false → t.pc = s.pc) ∧
    ((∀ x nn, instr ≠ .rnd x nn) → t.draws = s.draws) ∧
    (∀ k, k ∉ destinations instr → getReg t k = getReg s k)

/-- The six flag writers leave `VF` exactly 0 or 1, and no other instruction changes `VF` unless it names
`R[15]` as its destination (R13, R14; D10, D30, log 10). -/
def Obligations.OnlyFlagWritersWriteVf : Prop :=
  ∀ (instr : Instr) (s t : State), exec instr s = .next t →
    (match instr with
      | .addReg _ _ | .subReg _ _ | .subn _ _ | .shr _ _ | .shl _ _ | .drw _ _ _ =>
        getReg t 15 = 0 ∨ getReg t 15 = 1
      | .ldImm x _ | .addImm x _ | .ldReg x _ | .orReg x _ | .andReg x _ | .xorReg x _ | .rnd x _
      | .ldVxDt x | .ldVxK x | .ldVxMem x => x ≠ 15 → getReg t 15 = getReg s 15
      | _ => getReg t 15 = getReg s 15)

/-! ### Control transfer -/

/-- JP puts its operand in `PC` and changes nothing else; the whole cycle ticks the timers and does not
advance; a target of 4095 makes the next cycle raise `MemoryAddressNotFound` (R100). -/
def Obligations.JumpSetsPcWithoutAdvance : Prop :=
  ∀ (s : State) (nnn : Addr),
    exec (.jp nnn) s = .next { s with pc := nnn.toNat } ∧
    (decodedAt s (.jp nnn) → ∃ t, step s = .next t ∧
      t = { s with pc := nnn.toNat, dt := t.dt, st := t.st } ∧
      t.dt.toNat = s.dt.toNat - 1 ∧ t.st.toNat = s.st.toNat - 1 ∧
      (nnn = 4095 → step t = .fault .memoryAddressNotFound))

/-- JP V0 puts `NNN + R[0]` in `PC`, not reduced, and changes nothing else, `VF` included; its cycle does
not advance (R103; the meaning is general knowledge, G10, and the sum is D12, log 12). -/
def Obligations.JumpWithOffsetIsNotReduced : Prop :=
  ∀ (s : State) (nnn : Addr),
    exec (.jpV0 nnn) s = .next { s with pc := nnn.toNat + (getReg s 0).toNat } ∧
    (decodedAt s (.jpV0 nnn) → ∃ t, step s = .next t ∧ t.pc = nnn.toNat + (getReg s 0).toNat ∧
      t.r = s.r)

/-- CALL pushes the address of the CALL itself and jumps; on a full stack the top entry is overwritten,
`SP` stays 16, `StackOverflow` is reported and control is transferred all the same; its cycle completes
with the timers ticked (R101, R257; that the overflowing cycle completes is D8, log 8). -/
def Obligations.CallPushesItsOwnAddress : Prop :=
  ∀ (s : State) (nnn : Addr),
    ∃ t, exec (.call nnn) s = .next t ∧ t.pc = nnn.toNat ∧
      t = { s with pc := t.pc, stack := t.stack, sp := t.sp } ∧
      sameBytes s t ∧
      (s.sp ≠ 16 → t.sp.val = s.sp.val + 1 ∧ execStatus (.call nnn) s = .ok ∧
        ∀ k : Fin 16, t.stack.get k = if k.val = s.sp.val then s.pc else s.stack.get k) ∧
      (s.sp = 16 → t.sp = 16 ∧ execStatus (.call nnn) s = .stackOverflow ∧
        ∀ k : Fin 16, t.stack.get k = if k = 15 then s.pc else s.stack.get k) ∧
      (decodedAt s (.call nnn) → ∃ u, step s = .next u ∧
        hostCycle s = (.status (if s.sp = 16 then .stackOverflow else .ok), u) ∧
        u.pc = nnn.toNat ∧ u.stack = t.stack ∧ u.sp = t.sp ∧ u.dt.toNat = s.dt.toNat - 1 ∧ u.st.toNat = s.st.toNat - 1)

/-- RET on a stack that is not empty decrements `SP` and puts the entry popped in `PC`, with no advance in
its cycle; on an empty stack it raises `NoCall` (R102, `RET_ADVANCE = 0`; D6, log 6). -/
def Obligations.ReturnPopsIntoPc : Prop :=
  ∀ s : State,
    (s.sp = 0 → exec .ret s = .fault .noCall) ∧
    (∀ k : Fin 16, s.sp.val = k.val + 1 →
      ∃ t, exec .ret s = .next t ∧ t = { s with pc := s.stack.get k, sp := t.sp } ∧
        t.sp.val = k.val ∧ sameBytes s t ∧
        (decodedAt s .ret → ∃ u, step s = .next u ∧ u.pc = s.stack.get k ∧ u.sp = t.sp ∧
          u.stack = s.stack))

/-- A CALL whose target holds a RET: two cycles later `PC` is the address of the CALL again and `SP` is as
it was, so the CALL executes again (R285; D6, log 6). -/
def Obligations.ReturnLandsOnItsCall : Prop :=
  ∀ (s : State) (nnn : Addr), decodedAt s (.call nnn) → s.sp ≠ 16 → nnn.toNat ≤ 4094 →
    decodeBytes [s.mem.read nnn.toNat, s.mem.read (nnn.toNat + 1)] = .ok (.ret, []) →
    ∃ t u, step s = .next t ∧ decodedAt t .ret ∧ step t = .next u ∧ u.pc = s.pc ∧ u.sp = s.sp ∧
      decodedAt u (.call nnn)

/-- Pushing the addresses of nested CALLs onto a stack with room for all of them and popping as often gives
them back in reverse order, with `SP` and the entries in use before as they were, so sixteen on an empty
stack; one pop more from a stack that was empty answers nothing. One push and one pop change nothing but
stack entries that are not in use (R25, R101, R102; D31, log 3). -/
def Obligations.PopAfterPushRestores : Prop :=
  (∀ (s : State) (pcs : List Nat), s.sp.val + pcs.length ≤ 16 →
    ∃ t, popAll pcs.length (pushAll s pcs) = some (pcs.reverse, t) ∧ t.sp = s.sp ∧
      (∀ k : Fin 16, k.val < s.sp.val → t.stack.get k = s.stack.get k) ∧
      (s.sp = 0 → popAll (pcs.length + 1) (pushAll s pcs) = none)) ∧
  (∀ s : State, s.sp ≠ 16 →
    ∃ t, popPc (pushPc s) = some (s.pc, t) ∧ t.sp = s.sp ∧
      (∀ k : Fin 16, k.val < s.sp.val → t.stack.get k = s.stack.get k) ∧
      t = { s with stack := t.stack })

/-- The four comparing skips add 2 to `PC` in execute exactly when their condition holds and change nothing
else (R104 to R107; which comparison each makes is general knowledge, G12, log 33). -/
def Obligations.SkipsCompareAndSkip : Prop :=
  ∀ (s : State) (x y : RegId) (nn : Byte),
    exec (.seImm x nn) s =
      .next { s with pc := if (getReg s x).toNat = nn.toNat then s.pc + 2 else s.pc } ∧
    exec (.sneImm x nn) s =
      .next { s with pc := if (getReg s x).toNat = nn.toNat then s.pc else s.pc + 2 } ∧
    exec (.seReg x y) s =
      .next { s with pc := if (getReg s x).toNat = (getReg s y).toNat then s.pc + 2 else s.pc } ∧
    exec (.sneReg x y) s =
      .next { s with pc := if (getReg s x).toNat = (getReg s y).toNat then s.pc else s.pc + 2 }

/-! ### Registers -/

/-- The loads, the immediate add and the logic instructions write `R[X]` and nothing else, no flag among
them; with `X = 15` it is `R[15]` that is written (R120 to R125, R132; the meanings are general
knowledge, G6 to G8, log 33, and the absent flag is D10, log 10). -/
def Obligations.LoadsAddImmediateAndLogic : Prop :=
  ∀ (s : State) (x y : RegId) (nn : Byte),
    (∃ t, exec (.ldImm x nn) s = .next t ∧ getReg t x = nn ∧ onlyRegs s t [x]) ∧
    (∃ t, exec (.addImm x nn) s = .next t ∧
      (getReg t x).toNat = ((getReg s x).toNat + nn.toNat) % 256 ∧ onlyRegs s t [x]) ∧
    (∃ t, exec (.ldReg x y) s = .next t ∧ getReg t x = getReg s y ∧ onlyRegs s t [x]) ∧
    (∃ t, exec (.orReg x y) s = .next t ∧
      (getReg t x).toNat = (getReg s x).toNat ||| (getReg s y).toNat ∧ onlyRegs s t [x]) ∧
    (∃ t, exec (.andReg x y) s = .next t ∧
      (getReg t x).toNat = (getReg s x).toNat &&& (getReg s y).toNat ∧ onlyRegs s t [x]) ∧
    (∃ t, exec (.xorReg x y) s = .next t ∧
      (getReg t x).toNat = (getReg s x).toNat ^^^ (getReg s y).toNat ∧ onlyRegs s t [x])

/-- ADD Vx, Vy writes the wrapped sum to `R[X]`, then the carry to `R[15]` as the last step, so that with
`X = 15` the flag remains; the operands are the old values, `R[15]` among them (R126). -/
def Obligations.AddWrapsThenWritesCarry : Prop :=
  ∀ (s : State) (x y : RegId),
    ∃ t, exec (.addReg x y) s = .next t ∧
      (x ≠ 15 → (getReg t x).toNat = ((getReg s x).toNat + (getReg s y).toNat) % 256) ∧
      (getReg t 15).toNat = (if 255 < (getReg s x).toNat + (getReg s y).toNat then 1 else 0) ∧
      onlyRegs s t [x, 15]

/-- SUB and SUBN write the wrapped difference, then 0 in `R[15]` exactly when a borrow was needed, equal
operands giving 1 (R127, R129; which is subtracted from which is general knowledge, G9, log 33). -/
def Obligations.SubtractionsWrapThenWriteNoBorrow : Prop :=
  ∀ (s : State) (x y : RegId),
    (∃ t, exec (.subReg x y) s = .next t ∧
      (x ≠ 15 → (getReg t x).toNat = ((getReg s x).toNat + 256 - (getReg s y).toNat) % 256) ∧
      (getReg t 15).toNat = (if (getReg s x).toNat < (getReg s y).toNat then 0 else 1) ∧
      onlyRegs s t [x, 15]) ∧
    (∃ t, exec (.subn x y) s = .next t ∧
      (x ≠ 15 → (getReg t x).toNat = ((getReg s y).toNat + 256 - (getReg s x).toNat) % 256) ∧
      (getReg t 15).toNat = (if (getReg s y).toNat < (getReg s x).toNat then 0 else 1) ∧
      onlyRegs s t [x, 15])

/-- SHR and SHL shift `R[X]` in place by one, then write the bit shifted out to `R[15]`; `Y` makes no
difference (R128, R130, R68; in place is D9, log 9). -/
def Obligations.ShiftsWriteTheBitShiftedOut : Prop :=
  ∀ (s : State) (x y : RegId),
    (∃ t, exec (.shr x y) s = .next t ∧
      (x ≠ 15 → (getReg t x).toNat = (getReg s x).toNat / 2) ∧
      (getReg t 15).toNat = (getReg s x).toNat % 2 ∧ onlyRegs s t [x, 15]) ∧
    (∃ t, exec (.shl x y) s = .next t ∧
      (x ≠ 15 → (getReg t x).toNat = (getReg s x).toNat * 2 % 256) ∧
      (getReg t 15).toNat = (getReg s x).toNat / 128 ∧ onlyRegs s t [x, 15])

/-- RND completes, writes the byte drawn, which is the environment's at this position, masked by `NN`, takes
one draw and changes nothing else; no bit outside `NN` is set. The byte is a free value, so this holds of
every byte (R131, R133; the meaning is general knowledge, G11, log 33, and the draw is D13, log 13). -/
def Obligations.RandomByteIsMasked : Prop :=
  ∀ (s : State) (x : RegId) (nn : Byte),
    ∃ t, exec (.rnd x nn) s = .next t ∧ getReg t x = Config.randomByte s.draws &&& nn ∧
      getReg t x &&& ~~~nn = 0 ∧ t = { s with r := t.r, draws := s.draws + 1 } ∧ sameBytes s t ∧
      ∀ k, k ≠ x → getReg t k = getReg s k

/-! ### Index register and memory -/

/-- LD I stores its 12-bit address in `I` and changes nothing else (R140). -/
def Obligations.SetIndexStoresTheAddress : Prop :=
  ∀ (s : State) (nnn : Addr), exec (.ldI nnn) s = .next { s with i := nnn }

/-- ADD I adds the unsigned register to `I` modulo 4096 and changes nothing else, `VF` included (R141; the
reduction is D4, log 4). -/
def Obligations.AddToIndexWrapsAt4096 : Prop :=
  ∀ (s : State) (x : RegId),
    ∃ t, exec (.addIVx x) s = .next t ∧ t = { s with i := t.i } ∧ sameBytes s t ∧
      t.i.toNat = (s.i.toNat + (getReg s x).toNat) % 4096

/-- LD F sets `I` to five times a register of at most 15 and changes nothing else; above 15 it raises
`InvalidArguments` (R200; the whole byte is the operand, D25, log 25). -/
def Obligations.GlyphLookupIsFiveTimes : Prop :=
  ∀ (s : State) (x : RegId),
    ((getReg s x).toNat ≤ 15 → ∃ t, exec (.ldFVx x) s = .next t ∧ t = { s with i := t.i } ∧
      sameBytes s t ∧ t.i.toNat = 5 * (getReg s x).toNat) ∧
    (15 < (getReg s x).toNat → exec (.ldFVx x) s = .fault .invalidArguments)

/-- LD B stores the hundreds, tens and units of `R[X]` at `I`, `I + 1`, `I + 2`, leaves every other byte
and all other state alone, and keeps memory canonical; with `I + 2 >= 4096` it raises and stores nothing
(R142; the check is D5, log 5, `I` unchanged D11, log 11, and the canonical form log 32). -/
def Obligations.BcdStoresThreeDigits : Prop :=
  ∀ (s : State) (x : RegId),
    (s.mem.wf = true → effAddr s 2 < 4096 → ∃ t, exec (.ldBVx x) s = .next t ∧
      onlyBytes s t (effAddr s 0) 3 ∧
      (t.mem.read (effAddr s 0)).toNat = (getReg s x).toNat / 100 ∧
      (t.mem.read (effAddr s 1)).toNat = (getReg s x).toNat / 10 % 10 ∧
      (t.mem.read (effAddr s 2)).toNat = (getReg s x).toNat % 10) ∧
    (4096 ≤ effAddr s 2 → exec (.ldBVx x) s = .fault .memoryAddressNotFound)

/-- LD [I], Vx stores `R[0]` to `R[X]` at `I` to `I + X`, leaves every other byte and all other state
alone, and keeps memory canonical; with `I + X >= 4096` it raises and stores nothing (R144; D5, log 5;
D11, log 11; the canonical form is log 32). -/
def Obligations.BlockStoreCopiesRegisters : Prop :=
  ∀ (s : State) (x : RegId),
    (s.mem.wf = true → effAddr s x.val < 4096 → ∃ t, exec (.ldMemVx x) s = .next t ∧
      onlyBytes s t (effAddr s 0) (x.val + 1) ∧
      ∀ k : RegId, k ≤ x → t.mem.read (effAddr s k.val) = getReg s k) ∧
    (4096 ≤ effAddr s x.val → exec (.ldMemVx x) s = .fault .memoryAddressNotFound)

/-- LD Vx, [I] loads `R[0]` to `R[X]` from `I` to `I + X`, `R[15]` as any register, and changes nothing
else; with `I + X >= 4096` it raises and loads nothing (R145; D5, log 5; D11, log 11). -/
def Obligations.BlockLoadCopiesMemory : Prop :=
  ∀ (s : State) (x : RegId),
    (effAddr s x.val < 4096 → ∃ t, exec (.ldVxMem x) s = .next t ∧ t = { s with r := t.r } ∧
      sameBytes s t ∧
      ∀ k : RegId, getReg t k = if k ≤ x then s.mem.read (effAddr s k.val) else getReg s k) ∧
    (4096 ≤ effAddr s x.val → exec (.ldVxMem x) s = .fault .memoryAddressNotFound)

/-- A block load after a block store from the same `I` gives the stored registers back, whatever the
registers held in between (R144, R145; `I` unchanged is D11, log 11; the canonical form assumed of memory is
log 32). -/
def Obligations.BlockLoadAfterBlockStore : Prop :=
  ∀ (s t : State) (x : RegId) (between : Vector Byte 16), s.mem.wf = true →
    exec (.ldMemVx x) s = .next t →
    ∃ u, exec (.ldVxMem x) { t with r := between } = .next u ∧
      ∀ k : RegId, k ≤ x → getReg u k = getReg s k

/-- A store is seen by the next fetch: where FX55 wrote the two bytes at the next `PC`, the next cycle
fetches them (R51, R292; the canonical form assumed of memory is log 32). -/
def Obligations.NextFetchSeesTheStore : Prop :=
  ∀ (s t : State) (x k l : RegId), s.mem.wf = true → decodedAt s (.ldMemVx x) → step s = .next t →
    k ≤ x → l ≤ x → t.pc = effAddr s k.val → t.pc + 1 = effAddr s l.val → t.pc ≤ 4094 →
    fetch t = some (wordOf (getReg s k) (getReg s l))

/-! ### Drawing -/

/-- CLS makes every framebuffer byte 0 and so every pixel unset, and changes nothing else, no flag (R155;
the meaning is general knowledge, G5, log 33, and the absent flag D30, log 10). -/
def Obligations.ClearUnsetsEveryPixel : Prop :=
  ∀ s : State,
    ∃ t, exec .cls s = .next t ∧ t = { s with fb := t.fb } ∧ sameBytes s t ∧
      (∀ j, t.fb.get j = 0) ∧ ∀ x y, getPixel t.fb x y = false

/-- The pixel level and the byte level of drawing one sprite row are one function (R153; bit order D14,
log 14; wrapping D15, log 15). -/
def Obligations.DrawRowPixelsAreBytes : Prop :=
  ∀ (fb : Framebuffer) (x y : Nat) (b : Byte), drawRow fb x y b = drawRowBytes fb x y b

/-- Drawing one row inverts exactly the pixels under its set bits, and hits exactly when one of them was
set (R153, R154; bit order D14, log 14; wrapping D15, log 15). -/
def Obligations.DrawRowInvertsUnderSetBits : Prop :=
  ∀ (fb : Framebuffer) (x y : Nat) (b : Byte),
    (∀ px py,
      (py % 32 = y % 32 ∧ (∃ k < 8, b.getLsbD (7 - k) = true ∧ px % 64 = (x + k) % 64) →
        getPixel (drawRow fb x y b).1 px py = !getPixel fb px py) ∧
      (¬ (py % 32 = y % 32 ∧ ∃ k < 8, b.getLsbD (7 - k) = true ∧ px % 64 = (x + k) % 64) →
        getPixel (drawRow fb x y b).1 px py = getPixel fb px py)) ∧
    ((drawRow fb x y b).2 = true ↔
      ∃ k < 8, b.getLsbD (7 - k) = true ∧ getPixel fb (x + k) y = true)

/-- DRW inverts exactly the pixels under the set bits of its `N` rows at `(R[X], R[Y])`, then writes 1 to
`R[15]` if one of them was set and 0 if none was, and changes nothing else; the coordinates are the old
registers, `R[15]` among them; with `N = 0` nothing is drawn and `R[15]` becomes 0; a sprite past memory
raises and draws nothing (R156; D5, D14, D15, D32, log 5, log 14, log 15, log 29). -/
def Obligations.DrawInvertsUnderTheSprite : Prop :=
  ∀ (s : State) (x y : RegId) (n : Nibble),
    (n = 0 ∨ effAddr s (n.toNat - 1) < 4096 →
      ∃ t, exec (.drw x y n) s = .next t ∧ t = { s with r := t.r, fb := t.fb } ∧ sameBytes s t ∧
        (∀ px py,
          (spriteCovers s (getReg s x).toNat (getReg s y).toNat n.toNat px py →
            getPixel t.fb px py = !getPixel s.fb px py) ∧
          (¬ spriteCovers s (getReg s x).toNat (getReg s y).toNat n.toNat px py →
            getPixel t.fb px py = getPixel s.fb px py)) ∧
        (spriteMeets s (getReg s x).toNat (getReg s y).toNat n.toNat true → getReg t 15 = 1) ∧
        (¬ spriteMeets s (getReg s x).toNat (getReg s y).toNat n.toNat true → getReg t 15 = 0) ∧
        ∀ k, k ≠ 15 → getReg t k = getReg s k) ∧
    (n ≠ 0 → 4096 ≤ effAddr s (n.toNat - 1) →
      exec (.drw x y n) s = .fault .memoryAddressNotFound)

/-- Drawing the same sprite at the same place twice restores the framebuffer exactly, and the second draw
collides exactly when the first set a pixel (R157). -/
def Obligations.DrawingTwiceRestores : Prop :=
  ∀ (s t : State) (x y : RegId) (n : Nibble), exec (.drw x y n) s = .next t →
    ∃ u, exec (.drw x y n) { t with r := s.r } = .next u ∧ u.fb = s.fb ∧
      (getReg u 15 = 1 ↔ spriteMeets s (getReg s x).toNat (getReg s y).toNat n.toNat false) ∧
      (getReg t 15 = 1 ↔ spriteMeets s (getReg s x).toNat (getReg s y).toNat n.toNat true)

/-! ### Keys -/

/-- SKP removes the oldest event, if there is one, and skips exactly when it was the key whose number is
`R[X]`; nothing else changes (R176). -/
def Obligations.SkipIfKeyConsumesTheOldest : Prop :=
  ∀ (s : State) (x : RegId),
    (s.kq = [] → exec (.skp x) s = .next s) ∧
    (∀ k q, s.kq = k :: q → exec (.skp x) s =
      .next { s with kq := q, pc := if k.toNat = (getReg s x).toNat then s.pc + 2 else s.pc })

/-- SKNP removes the oldest event, if there is one, and skips exactly when there was none or it was not the
key whose number is `R[X]`; nothing else changes (R177; skipping on an empty queue is D16, log 16). -/
def Obligations.SkipIfNotKeyConsumesTheOldest : Prop :=
  ∀ (s : State) (x : RegId),
    (s.kq = [] → exec (.sknp x) s = .next { s with pc := s.pc + 2 }) ∧
    (∀ k q, s.kq = k :: q → exec (.sknp x) s =
      .next { s with kq := q, pc := if k.toNat = (getReg s x).toNat then s.pc else s.pc + 2 })

/-- LD Vx, K with an event pending consumes the oldest, stores it zero-extended and clears `WAIT`; with
none it sets `WAIT` and changes nothing else; `PC` is advanced in its cycle exactly when a key was
consumed (R178). -/
def Obligations.WaitForKeyStoresOrWaits : Prop :=
  ∀ (s : State) (x : RegId),
    (s.kq = [] → exec (.ldVxK x) s = .next { s with wait := true } ∧
      (decodedAt s (.ldVxK x) → ∃ t, step s = .next t ∧ t.pc = s.pc ∧
        t.dt.toNat = s.dt.toNat - 1 ∧ t.st.toNat = s.st.toNat - 1)) ∧
    (∀ k q, s.kq = k :: q → ∃ t, exec (.ldVxK x) s = .next t ∧
      t = { s with r := t.r, kq := q, wait := false } ∧ sameBytes s t ∧
      (getReg t x).toNat = k.toNat ∧ (∀ j, j ≠ x → getReg t j = getReg s j) ∧
      (decodedAt s (.ldVxK x) → ∃ u, step s = .next u ∧ u.pc = s.pc + 2 ∧
        u.dt.toNat = s.dt.toNat - 1 ∧ u.st.toNat = s.st.toNat - 1))

/-- Pop answers the oldest event and removes it, or "none" and changes nothing; peek answers the same and
changes nothing, being no state change at all (R172, R173). -/
def Obligations.PopAndPeekAnswerTheOldest : Prop :=
  ∀ s : State,
    (s.kq = [] → hostKeyPop s = (none, s) ∧ hostKeyPeek s = none) ∧
    (∀ k q, s.kq = k :: q → hostKeyPop s = (some k, { s with kq := q }) ∧ hostKeyPeek s = some k)

/-- Keys pushed onto a queue with room are appended in the order of the pushes and the machine is
otherwise unchanged; "none" is no event; a push onto a full queue is dropped (R170, R171; the drop and
the open capacity are D17, log 17). -/
def Obligations.PushesAppendInOrder : Prop :=
  (∀ (s : State) (keys : List Key), s.kq.length + keys.length ≤ Config.keyqCap →
    keys.foldl (fun m k => hostKeyPush (some k) m) s = { s with kq := s.kq ++ keys }) ∧
  (∀ s : State, hostKeyPush none s = s) ∧
  (∀ (s : State) (k : Key), Config.keyqCap ≤ s.kq.length → hostKeyPush (some k) s = s)

/-! ### Timers -/

/-- LD Vx, DT reads `DT` as it stood before this cycle's tick; LD DT and LD ST write the timer, which the
same cycle then ticks; nothing else changes in execute (R190, R191, R192). -/
def Obligations.TimerInstructionsReadAndWrite : Prop :=
  ∀ (s : State) (x : RegId),
    (∃ t, exec (.ldVxDt x) s = .next t ∧ getReg t x = s.dt ∧ onlyRegs s t [x] ∧
      (decodedAt s (.ldVxDt x) → ∃ u, step s = .next u ∧ getReg u x = s.dt ∧
        u.dt.toNat = s.dt.toNat - 1)) ∧
    (exec (.ldDtVx x) s = .next { s with dt := getReg s x } ∧
      (decodedAt s (.ldDtVx x) → ∃ u, step s = .next u ∧ u.dt.toNat = (getReg s x).toNat - 1)) ∧
    (exec (.ldStVx x) s = .next { s with st := getReg s x } ∧
      (decodedAt s (.ldStVx x) → ∃ u, step s = .next u ∧ u.st.toNat = (getReg s x).toNat - 1))

/-! ### The host -/

/-- `init` leaves `PC` at 0x200, the parameter `GLYPHS` at addresses 0 to 79, zero in the rest of memory, and
every other piece of state zero, empty or false (R230, R281, R46; the zeros outside memory are D18, log 18;
the glyph bytes are an open parameter, D19, log 19). -/
def Obligations.InitGivesTheResetState : Prop :=
  ∀ s : State,
    (hostInit s).pc = 0x200 ∧ (∀ a, 80 ≤ a → (hostInit s).mem.read a = 0) ∧
    (∀ a, a < 80 → (hostInit s).mem.read a = Config.glyph a) ∧
    (∀ x, getReg (hostInit s) x = 0) ∧ (hostInit s).i = 0 ∧ (hostInit s).sp = 0 ∧
    (∀ k, (hostInit s).stack.get k = 0) ∧ (hostInit s).dt = 0 ∧ (hostInit s).st = 0 ∧
    (hostInit s).wait = false ∧ (∀ j, (hostInit s).fb.get j = 0) ∧ (hostInit s).kq = []

/-- `load_program` copies a program of at most 3584 bytes from 0x200 and changes nothing else, every other
byte of memory included, in canonical form (log 32); a longer one is `ROMTooBig` and nothing changes (R231;
D24, D33, log 24, log 30). -/
def Obligations.LoadProgramCopiesOrRefuses : Prop :=
  ∀ (s : State) (image : List Byte), s.mem.wf = true →
    (image.length ≤ 3584 → ∃ t, hostLoadProgram image s = (.ok, t) ∧
      onlyBytes s t 0x200 image.length ∧
      ∀ j, j < image.length → t.mem.read (0x200 + j) = image.getD j 0) ∧
    (3584 < image.length → hostLoadProgram image s = (.romTooBig, s))

/-- The boot sequence: after `init` and a load of a program of at least two bytes the first fetch is the
program's first word; with nothing loaded the first cycle raises `InvalidOpcode` (R282, R69). -/
def Obligations.BootFetchesTheFirstWord : Prop :=
  (∀ (s : State) (hi lo : Byte) (rest : List Byte), rest.length ≤ 3582 →
    fetch (hostLoadProgram (hi :: lo :: rest) (hostInit s)).2 = some (wordOf hi lo)) ∧
  ∀ s : State, step (hostInit s) = .fault .invalidOpcode

/-- A pixel query wraps its coordinates into the grid and reads bit `7 - (x mod 8)` of byte
`(x div 8) + 8 y`; the sound output is on exactly when `ST` is not 0 (R236, R151, R237; bit order D14,
log 14; the output is D22, log 22). -/
def Obligations.PixelQueryWrapsAndSoundFollowsSt : Prop :=
  ∀ s : State,
    (∀ x y : Nat, hostGetPixel s x y = hostGetPixel s (x % 64) (y % 32)) ∧
    (∀ (x y : Nat) (j : Fin 256), x < 64 → y < 32 → j.val = x / 8 + 8 * y →
      hostGetPixel s x y = (s.fb.get j).getLsbD (7 - x % 8)) ∧
    (hostSoundActive s = true ↔ 0 < s.st.toNat)
end

