-- ==== Sys2Proof/Laws/Decode.lean ====
section
/-! SUPPORT. The fields of a word as quotients and remainders, and of an encoded word as the fields that
went in. -/

namespace Sys2Proof

/-- `G` is the quotient by 4096 (R61). -/
theorem fieldG_eq (w : Word) : fieldG w = w.toNat / 4096 := by
  simp [fieldG, Nat.shiftRight_eq_div_pow]

/-- `NNN` is the remainder by 4096 (R61). -/
theorem fieldNNN_toNat (w : Word) : (fieldNNN w).toNat = w.toNat % 4096 := by
  simp only [fieldNNN, BitVec.toNat_setWidth, BitVec.toNat_and]
  norm_num
  rw [show BitVec.toNat (4095 : Word) = 2 ^ 12 - 1 from rfl, Nat.and_two_pow_sub_one_eq_mod]
  omega

/-- `NN` is the remainder by 256 (R61). -/
theorem fieldNN_toNat (w : Word) : (fieldNN w).toNat = w.toNat % 256 := by
  simp only [fieldNN, BitVec.toNat_setWidth, BitVec.toNat_and]
  norm_num
  rw [show BitVec.toNat (255 : Word) = 2 ^ 8 - 1 from rfl, Nat.and_two_pow_sub_one_eq_mod]
  omega

/-- `N` is the remainder by 16 (R61). -/
theorem fieldN_toNat (w : Word) : (fieldN w).toNat = w.toNat % 16 := by
  simp only [fieldN, BitVec.toNat_setWidth, BitVec.toNat_and]
  norm_num
  rw [show BitVec.toNat (15 : Word) = 2 ^ 4 - 1 from rfl, Nat.and_two_pow_sub_one_eq_mod]
  omega

/-- Mask, then shift, is shift, then remainder: the nibble at bit 8. -/
theorem mask_shift_8 (w : Word) : ((w &&& 0x0F00) >>> 8) = (w >>> 8) &&& 0x000F := by
  ext k hk
  simp only [BitVec.getElem_ushiftRight, BitVec.getLsbD_and, BitVec.getElem_and]
  interval_cases k <;> simp

/-- Mask, then shift, is shift, then remainder: the nibble at bit 4. -/
theorem mask_shift_4 (w : Word) : ((w &&& 0x00F0) >>> 4) = (w >>> 4) &&& 0x000F := by
  ext k hk
  simp only [BitVec.getElem_ushiftRight, BitVec.getLsbD_and, BitVec.getElem_and]
  interval_cases k <;> simp

/-- `X` is bits 11:8 (R61). -/
theorem fieldX_val (w : Word) : (fieldX w).val = w.toNat / 256 % 16 := by
  have h : (fieldX w).val = (((w >>> 8) &&& 0x000F).setWidth 4).toNat := by
    rw [← mask_shift_8]; rfl
  rw [h]
  simp only [BitVec.toNat_setWidth, BitVec.toNat_and, BitVec.toNat_ushiftRight,
    Nat.shiftRight_eq_div_pow]
  norm_num
  rw [show BitVec.toNat (15 : Word) = 2 ^ 4 - 1 from rfl, Nat.and_two_pow_sub_one_eq_mod]
  omega

/-- `Y` is bits 7:4 (R61). -/
theorem fieldY_val (w : Word) : (fieldY w).val = w.toNat / 16 % 16 := by
  have h : (fieldY w).val = (((w >>> 4) &&& 0x000F).setWidth 4).toNat := by
    rw [← mask_shift_4]; rfl
  rw [h]
  simp only [BitVec.toNat_setWidth, BitVec.toNat_and, BitVec.toNat_ushiftRight,
    Nat.shiftRight_eq_div_pow]
  norm_num
  rw [show BitVec.toNat (15 : Word) = 2 ^ 4 - 1 from rfl, Nat.and_two_pow_sub_one_eq_mod]
  omega

/-- The number of an encoded word of format A. -/
theorem encodeA_toNat (g : Nat) (hg : g < 16) (nnn : Addr) :
    (encodeA g nnn).toNat = g * 4096 + nnn.toNat := by
  simp only [encodeA, BitVec.toNat_ofNat]
  omega

/-- The number of an encoded word of format XI or XS. -/
theorem encodeXI_toNat (g : Nat) (hg : g < 16) (x : RegId) (nn : Byte) :
    (encodeXI g x nn).toNat = g * 4096 + x.val * 256 + nn.toNat := by
  simp only [encodeXI, BitVec.toNat_ofNat]
  omega

/-- The number of an encoded word of format XYN or XYS. -/
theorem encodeXYN_toNat (g : Nat) (hg : g < 16) (x y : RegId) (n : Nibble) :
    (encodeXYN g x y n).toNat = g * 4096 + x.val * 256 + y.val * 16 + n.toNat := by
  simp only [encodeXYN, BitVec.toNat_ofNat]
  omega

/-! ### The fields of an encoded word are the fields that went in -/

@[simp] theorem fieldG_encodeA (g : Nat) (hg : g < 16) (nnn : Addr) : fieldG (encodeA g nnn) = g := by
  rw [fieldG_eq, encodeA_toNat g hg]; omega

@[simp] theorem fieldNNN_encodeA (g : Nat) (hg : g < 16) (nnn : Addr) :
    fieldNNN (encodeA g nnn) = nnn := by
  apply BitVec.eq_of_toNat_eq
  rw [fieldNNN_toNat, encodeA_toNat g hg]; omega

@[simp] theorem fieldG_encodeXI (g : Nat) (hg : g < 16) (x : RegId) (nn : Byte) :
    fieldG (encodeXI g x nn) = g := by
  rw [fieldG_eq, encodeXI_toNat g hg]; omega

@[simp] theorem fieldX_encodeXI (g : Nat) (hg : g < 16) (x : RegId) (nn : Byte) :
    fieldX (encodeXI g x nn) = x := by
  apply Fin.ext
  rw [fieldX_val, encodeXI_toNat g hg]; omega

@[simp] theorem fieldNN_encodeXI (g : Nat) (hg : g < 16) (x : RegId) (nn : Byte) :
    fieldNN (encodeXI g x nn) = nn := by
  apply BitVec.eq_of_toNat_eq
  rw [fieldNN_toNat, encodeXI_toNat g hg]; omega

@[simp] theorem fieldG_encodeXYN (g : Nat) (hg : g < 16) (x y : RegId) (n : Nibble) :
    fieldG (encodeXYN g x y n) = g := by
  rw [fieldG_eq, encodeXYN_toNat g hg]; omega

@[simp] theorem fieldX_encodeXYN (g : Nat) (hg : g < 16) (x y : RegId) (n : Nibble) :
    fieldX (encodeXYN g x y n) = x := by
  apply Fin.ext
  rw [fieldX_val, encodeXYN_toNat g hg]; omega

@[simp] theorem fieldY_encodeXYN (g : Nat) (hg : g < 16) (x y : RegId) (n : Nibble) :
    fieldY (encodeXYN g x y n) = y := by
  apply Fin.ext
  rw [fieldY_val, encodeXYN_toNat g hg]; omega

@[simp] theorem fieldN_encodeXYN (g : Nat) (hg : g < 16) (x y : RegId) (n : Nibble) :
    fieldN (encodeXYN g x y n) = n := by
  apply BitVec.eq_of_toNat_eq
  rw [fieldN_toNat, encodeXYN_toNat g hg]; omega

/-- Splitting a word into its bytes and joining them gives the word back (R52). -/
@[simp] theorem wordOf_bytes (w : Word) : wordOf (highByte w) (lowByte w) = w := by
  apply BitVec.eq_of_toNat_eq
  simp only [wordOf, highByte, lowByte, BitVec.toNat_ofNat]
  omega

end Sys2Proof
end

