-- ==== Sys2Proof/Laws/Framebuffer.lean ====
section
/-! SUPPORT. Pixels of the packed framebuffer: which pixels share a byte and a bit, and what a flip does. -/

namespace Sys2Proof.Machine

/-- The bit of a pixel inside its byte is one of eight. -/
theorem pixelBit_lt (x : Nat) : pixelBit x < 8 := by unfold pixelBit; omega

/-- A flip inverts its own pixel and no other (R153): two coordinate pairs are one pixel exactly when they
agree after wrapping (R151). -/
theorem getPixel_flipPixel (fb : Framebuffer) (x y px py : Nat) :
    getPixel (flipPixel fb x y) px py =
      (getPixel fb px py ^^ decide (px % 64 = x % 64 ∧ py % 32 = y % 32)) := by
  have hx := pixelBit_lt x
  have hp := pixelBit_lt px
  simp only [getPixel, flipPixel, Vector.get_eq_getElem, Vector.getElem_set]
  by_cases hb : (pixelByte x y).val = (pixelByte px py).val
  · have hb' : pixelByte x y = pixelByte px py := Fin.ext hb
    rw [if_pos hb, hb']
    simp only [BitVec.getLsbD_xor, BitVec.getLsbD_shiftLeft]
    congr 1
    simp only [pixelByte] at hb
    by_cases hbit : pixelBit px = pixelBit x
    · have hx' : px % 64 = x % 64 := by unfold pixelBit at hbit; omega
      have hy' : py % 32 = y % 32 := by omega
      simp [hbit, hx, hx', hy']
    · have hx' : ¬ (px % 64 = x % 64) := by unfold pixelBit at hbit; omega
      by_cases hlt : pixelBit px < pixelBit x
      · simp [hlt, hx']
      · have : (1#8).getLsbD (pixelBit px - pixelBit x) = false := by
          obtain ⟨d, hd⟩ : ∃ d, pixelBit px - pixelBit x = d + 1 := ⟨pixelBit px - pixelBit x - 1, by omega⟩
          rw [hd]
          have hd7 : d < 7 := by omega
          clear hd
          interval_cases d <;> rfl
        simp [hp, hlt, hx', this]
  · rw [if_neg hb]
    have : ¬ (px % 64 = x % 64 ∧ py % 32 = y % 32) := by
      simp only [pixelByte] at hb
      omega
    simp [this]

end Sys2Proof.Machine
end

