-- ==== Sys2Proof/Laws/Memory.lean ====
section
/-! SUPPORT. Laws of main memory: every operation keeps the canonical form, and a read after a write. -/

namespace Sys2Proof.Machine

/-- The head of a canonical list is in range and is no reset byte, and the tail is canonical above it. -/
theorem Memory.wfAbove_cons (lo a : Nat) (v : Byte) (rest : Memory) :
    Memory.wfAbove lo ((a, v) :: rest) = true ↔
      lo ≤ a ∧ a < 4096 ∧ v ≠ resetByte a ∧ Memory.wfAbove (a + 1) rest = true := by
  simp [Memory.wfAbove, and_assoc]

/-- A list canonical above an address is canonical above a lower one. -/
theorem Memory.wfAbove_mono {lo lo' : Nat} (h : lo ≤ lo') :
    ∀ {m : Memory}, Memory.wfAbove lo' m = true → Memory.wfAbove lo m = true
  | [], _ => rfl
  | (a, v) :: rest, hm => by
    rw [Memory.wfAbove_cons] at hm ⊢
    exact ⟨h.trans hm.1, hm.2⟩

/-- An address below everything listed reads as at reset. -/
theorem Memory.read_below {lo a : Nat} (h : a < lo) :
    ∀ {m : Memory}, Memory.wfAbove lo m = true → m.read a = resetByte a
  | [], _ => rfl
  | (b, v) :: rest, hm => by
    rw [Memory.wfAbove_cons] at hm
    have hb : a ≠ b := by omega
    simpa [Memory.read, hb] using Memory.read_below (by omega : a < b + 1) hm.2.2.2

/-- Inserting a byte keeps the canonical form. -/
theorem Memory.insert_wfAbove {a : Nat} (ha : a < 4096) (v : Byte) :
    ∀ {lo : Nat} {m : Memory}, lo ≤ a → Memory.wfAbove lo m = true →
      Memory.wfAbove lo (m.insert a v) = true
  | lo, [], hlo, _ => by
    by_cases hv : v = resetByte a
    · simp [Memory.insert, hv, Memory.wfAbove]
    · simp [Memory.insert, hv, Memory.wfAbove, hlo, ha]
  | lo, (b, w) :: rest, hlo, hm => by
    obtain ⟨hb, hb', hw, hrest⟩ := (Memory.wfAbove_cons ..).1 hm
    unfold Memory.insert
    split
    · split
      · exact hm
      · rename_i hab hv
        exact (Memory.wfAbove_cons ..).2 ⟨hlo, ha, hv, (Memory.wfAbove_cons ..).2 ⟨hab, hb', hw, hrest⟩⟩
    · split
      · split
        · exact Memory.wfAbove_mono (by omega) hrest
        · rename_i hab hv
          exact (Memory.wfAbove_cons ..).2 ⟨hlo, ha, hv, hab ▸ hrest⟩
      · exact (Memory.wfAbove_cons ..).2
          ⟨hb, hb', hw, Memory.insert_wfAbove ha v (by omega) hrest⟩

/-- A read after inserting a byte. -/
theorem Memory.read_insert (a : Nat) (v : Byte) (c : Nat) :
    ∀ {lo : Nat} {m : Memory}, Memory.wfAbove lo m = true →
      (m.insert a v).read c = if c = a then v else m.read c
  | _, [], _ => by
    by_cases hv : v = resetByte a <;> by_cases hc : c = a <;> simp [Memory.insert, Memory.read, hv, hc]
  | _, (b, w) :: rest, hm => by
    obtain ⟨_, _, _, hrest⟩ := (Memory.wfAbove_cons ..).1 hm
    unfold Memory.insert
    split
    · rename_i hab
      split
      · rename_i hv
        by_cases hc : c = a
        · subst hc
          have hcb : c ≠ b := by omega
          simp [Memory.read, hcb, hv, Memory.read_below (by omega : c < b + 1) hrest]
        · simp [hc]
      · simp [Memory.read]
    · split
      · rename_i hab
        subst hab
        split
        · rename_i hv
          by_cases hc : c = a
          · subst hc
            simp [hv, Memory.read_below (by omega : c < c + 1) hrest]
          · simp [Memory.read, hc]
        · by_cases hc : c = a <;> simp [Memory.read, hc]
      · rename_i hab
        have ih := Memory.read_insert a v c hrest
        by_cases hc : c = b
        · simp [Memory.read, hc, show b ≠ a by omega]
        · simp [Memory.read, hc, ih]

/-- Writing a byte keeps the canonical form. -/
theorem Memory.write_wf {m : Memory} (a : Nat) (v : Byte) (h : m.wf = true) : (m.write a v).wf = true := by
  unfold Memory.write
  split
  · exact Memory.insert_wfAbove (by assumption) v (Nat.zero_le a) h
  · exact h

/-- A read after a write: the byte written at its address, every other byte as before. -/
theorem Memory.read_write {m : Memory} {a : Nat} (v : Byte) (c : Nat) (h : m.wf = true) (ha : a < 4096) :
    (m.write a v).read c = if c = a then v else m.read c := by
  simp only [Memory.write, Config.memSize, ha, if_true]
  exact Memory.read_insert a v c h

/-- Writing ascending bytes keeps the canonical form. -/
theorem Memory.writeBytes_wf : ∀ (vs : List Byte) {m : Memory} (a : Nat), m.wf = true →
    (m.writeBytes a vs).wf = true
  | [], _, _, h => h
  | v :: vs, _, a, h => Memory.writeBytes_wf vs (a + 1) (Memory.write_wf a v h)

/-- A read after writing ascending bytes, all in memory. -/
theorem Memory.read_writeBytes : ∀ (vs : List Byte) {m : Memory} (a c : Nat), m.wf = true →
    a + vs.length ≤ 4096 →
    (m.writeBytes a vs).read c =
      if a ≤ c ∧ c < a + vs.length then vs.getD (c - a) 0 else m.read c
  | [], m, a, c, _, _ => by
    have : ¬ (a ≤ c ∧ c < a) := by omega
    simp [Memory.writeBytes, this]
  | v :: vs, m, a, c, h, hlen => by
    simp only [List.length_cons] at hlen
    simp only [Memory.writeBytes]
    rw [Memory.read_writeBytes vs (a + 1) c (Memory.write_wf a v h) (by omega),
      Memory.read_write v c h (by omega)]
    simp only [List.length_cons]
    by_cases h1 : c = a
    · subst h1
      simp
    · by_cases h2 : a + 1 ≤ c ∧ c < a + 1 + vs.length
      · have h3 : a ≤ c ∧ c < a + (vs.length + 1) := by omega
        obtain ⟨k, rfl⟩ : ∃ k, c = a + 1 + k := ⟨c - a - 1, by omega⟩
        simp only [h2, h3, and_self, if_true, show a + 1 + k - (a + 1) = k by omega,
          show a + 1 + k - a = k + 1 by omega]
        rfl
      · have h3 : ¬ (a ≤ c ∧ c < a + (vs.length + 1)) := by omega
        rw [if_neg h2, if_neg h1, if_neg h3]

/-- Every byte outside the written ones reads as before, wherever the bytes go. -/
theorem Memory.read_writeBytes_outside : ∀ (vs : List Byte) {m : Memory} (a c : Nat), m.wf = true →
    ¬ (a ≤ c ∧ c < a + vs.length) → (m.writeBytes a vs).read c = m.read c
  | [], _, _, _, _, _ => rfl
  | v :: vs, m, a, c, h, hc => by
    simp only [List.length_cons] at hc
    simp only [Memory.writeBytes]
    rw [Memory.read_writeBytes_outside vs (a + 1) c (Memory.write_wf a v h) (by omega)]
    by_cases ha : a < 4096
    · rw [Memory.read_write v c h ha, if_neg (by omega)]
    · simp [Memory.write, ha]

/-- Reading `n` bytes gives `n` bytes. -/
@[simp] theorem Memory.length_readBytes (m : Memory) : ∀ (n a : Nat), (m.readBytes a n).length = n
  | 0, _ => rfl
  | n + 1, a => by simp [Memory.readBytes, Memory.length_readBytes m n]

/-- The `k`-th of `n` bytes read from `a` is the byte at `a + k`. -/
theorem Memory.getD_readBytes (m : Memory) : ∀ (n a k : Nat), k < n →
    (m.readBytes a n).getD k 0 = m.read (a + k)
  | n + 1, a, 0, _ => rfl
  | n + 1, a, k + 1, h => by
    have := Memory.getD_readBytes m n (a + 1) k (by omega)
    simpa [Memory.readBytes, Nat.add_assoc, Nat.add_comm 1 k] using this

/-- Memory with nothing listed is canonical. -/
@[simp] theorem Memory.wf_nil : Memory.wf [] = true := rfl

end Sys2Proof.Machine
end

