-- ==== Sys2Proof/Laws/State.lean ====
section
/-! SUPPORT. What each named update of the state leaves in each field, one lemma per field per update, so
that no later proof unfolds a record update. -/

namespace Sys2Proof.Machine

/-! ### `R[x] <- v` -/

@[simp] theorem setReg_r (s : State) (x : RegId) (v : Byte) : (setReg s x v).r = s.r.set x v x.isLt := rfl
@[simp] theorem setReg_i (s : State) (x : RegId) (v : Byte) : (setReg s x v).i = s.i := rfl
@[simp] theorem setReg_pc (s : State) (x : RegId) (v : Byte) : (setReg s x v).pc = s.pc := rfl
@[simp] theorem setReg_stack (s : State) (x : RegId) (v : Byte) : (setReg s x v).stack = s.stack := rfl
@[simp] theorem setReg_sp (s : State) (x : RegId) (v : Byte) : (setReg s x v).sp = s.sp := rfl
@[simp] theorem setReg_dt (s : State) (x : RegId) (v : Byte) : (setReg s x v).dt = s.dt := rfl
@[simp] theorem setReg_st (s : State) (x : RegId) (v : Byte) : (setReg s x v).st = s.st := rfl
@[simp] theorem setReg_wait (s : State) (x : RegId) (v : Byte) : (setReg s x v).wait = s.wait := rfl
@[simp] theorem setReg_mem (s : State) (x : RegId) (v : Byte) : (setReg s x v).mem = s.mem := rfl
@[simp] theorem setReg_fb (s : State) (x : RegId) (v : Byte) : (setReg s x v).fb = s.fb := rfl
@[simp] theorem setReg_kq (s : State) (x : RegId) (v : Byte) : (setReg s x v).kq = s.kq := rfl
@[simp] theorem setReg_draws (s : State) (x : RegId) (v : Byte) : (setReg s x v).draws = s.draws := rfl

/-! ### `VF <- f` -/

@[simp] theorem setFlag_r (s : State) (f : Byte) : (setFlag s f).r = s.r.set 15 f := rfl
@[simp] theorem setFlag_i (s : State) (f : Byte) : (setFlag s f).i = s.i := rfl
@[simp] theorem setFlag_pc (s : State) (f : Byte) : (setFlag s f).pc = s.pc := rfl
@[simp] theorem setFlag_stack (s : State) (f : Byte) : (setFlag s f).stack = s.stack := rfl
@[simp] theorem setFlag_sp (s : State) (f : Byte) : (setFlag s f).sp = s.sp := rfl
@[simp] theorem setFlag_dt (s : State) (f : Byte) : (setFlag s f).dt = s.dt := rfl
@[simp] theorem setFlag_st (s : State) (f : Byte) : (setFlag s f).st = s.st := rfl
@[simp] theorem setFlag_wait (s : State) (f : Byte) : (setFlag s f).wait = s.wait := rfl
@[simp] theorem setFlag_mem (s : State) (f : Byte) : (setFlag s f).mem = s.mem := rfl
@[simp] theorem setFlag_fb (s : State) (f : Byte) : (setFlag s f).fb = s.fb := rfl
@[simp] theorem setFlag_kq (s : State) (f : Byte) : (setFlag s f).kq = s.kq := rfl
@[simp] theorem setFlag_draws (s : State) (f : Byte) : (setFlag s f).draws = s.draws := rfl

/-! ### the result, then the flag -/

@[simp] theorem setRegThenFlag_r (s : State) (x : RegId) (v f : Byte) : (setRegThenFlag s x v f).r = (s.r.set x v x.isLt).set 15 f := rfl
@[simp] theorem setRegThenFlag_i (s : State) (x : RegId) (v f : Byte) : (setRegThenFlag s x v f).i = s.i := rfl
@[simp] theorem setRegThenFlag_pc (s : State) (x : RegId) (v f : Byte) : (setRegThenFlag s x v f).pc = s.pc := rfl
@[simp] theorem setRegThenFlag_stack (s : State) (x : RegId) (v f : Byte) : (setRegThenFlag s x v f).stack = s.stack := rfl
@[simp] theorem setRegThenFlag_sp (s : State) (x : RegId) (v f : Byte) : (setRegThenFlag s x v f).sp = s.sp := rfl
@[simp] theorem setRegThenFlag_dt (s : State) (x : RegId) (v f : Byte) : (setRegThenFlag s x v f).dt = s.dt := rfl
@[simp] theorem setRegThenFlag_st (s : State) (x : RegId) (v f : Byte) : (setRegThenFlag s x v f).st = s.st := rfl
@[simp] theorem setRegThenFlag_wait (s : State) (x : RegId) (v f : Byte) : (setRegThenFlag s x v f).wait = s.wait := rfl
@[simp] theorem setRegThenFlag_mem (s : State) (x : RegId) (v f : Byte) : (setRegThenFlag s x v f).mem = s.mem := rfl
@[simp] theorem setRegThenFlag_fb (s : State) (x : RegId) (v f : Byte) : (setRegThenFlag s x v f).fb = s.fb := rfl
@[simp] theorem setRegThenFlag_kq (s : State) (x : RegId) (v f : Byte) : (setRegThenFlag s x v f).kq = s.kq := rfl
@[simp] theorem setRegThenFlag_draws (s : State) (x : RegId) (v f : Byte) : (setRegThenFlag s x v f).draws = s.draws := rfl

/-! ### `I <- v` -/

@[simp] theorem setIndex_r (s : State) (v : Addr) : (setIndex s v).r = s.r := rfl
@[simp] theorem setIndex_i (s : State) (v : Addr) : (setIndex s v).i = v := rfl
@[simp] theorem setIndex_pc (s : State) (v : Addr) : (setIndex s v).pc = s.pc := rfl
@[simp] theorem setIndex_stack (s : State) (v : Addr) : (setIndex s v).stack = s.stack := rfl
@[simp] theorem setIndex_sp (s : State) (v : Addr) : (setIndex s v).sp = s.sp := rfl
@[simp] theorem setIndex_dt (s : State) (v : Addr) : (setIndex s v).dt = s.dt := rfl
@[simp] theorem setIndex_st (s : State) (v : Addr) : (setIndex s v).st = s.st := rfl
@[simp] theorem setIndex_wait (s : State) (v : Addr) : (setIndex s v).wait = s.wait := rfl
@[simp] theorem setIndex_mem (s : State) (v : Addr) : (setIndex s v).mem = s.mem := rfl
@[simp] theorem setIndex_fb (s : State) (v : Addr) : (setIndex s v).fb = s.fb := rfl
@[simp] theorem setIndex_kq (s : State) (v : Addr) : (setIndex s v).kq = s.kq := rfl
@[simp] theorem setIndex_draws (s : State) (v : Addr) : (setIndex s v).draws = s.draws := rfl

/-! ### `DT <- v` -/

@[simp] theorem setDelay_r (s : State) (v : Byte) : (setDelay s v).r = s.r := rfl
@[simp] theorem setDelay_i (s : State) (v : Byte) : (setDelay s v).i = s.i := rfl
@[simp] theorem setDelay_pc (s : State) (v : Byte) : (setDelay s v).pc = s.pc := rfl
@[simp] theorem setDelay_stack (s : State) (v : Byte) : (setDelay s v).stack = s.stack := rfl
@[simp] theorem setDelay_sp (s : State) (v : Byte) : (setDelay s v).sp = s.sp := rfl
@[simp] theorem setDelay_dt (s : State) (v : Byte) : (setDelay s v).dt = v := rfl
@[simp] theorem setDelay_st (s : State) (v : Byte) : (setDelay s v).st = s.st := rfl
@[simp] theorem setDelay_wait (s : State) (v : Byte) : (setDelay s v).wait = s.wait := rfl
@[simp] theorem setDelay_mem (s : State) (v : Byte) : (setDelay s v).mem = s.mem := rfl
@[simp] theorem setDelay_fb (s : State) (v : Byte) : (setDelay s v).fb = s.fb := rfl
@[simp] theorem setDelay_kq (s : State) (v : Byte) : (setDelay s v).kq = s.kq := rfl
@[simp] theorem setDelay_draws (s : State) (v : Byte) : (setDelay s v).draws = s.draws := rfl

/-! ### `ST <- v` -/

@[simp] theorem setSound_r (s : State) (v : Byte) : (setSound s v).r = s.r := rfl
@[simp] theorem setSound_i (s : State) (v : Byte) : (setSound s v).i = s.i := rfl
@[simp] theorem setSound_pc (s : State) (v : Byte) : (setSound s v).pc = s.pc := rfl
@[simp] theorem setSound_stack (s : State) (v : Byte) : (setSound s v).stack = s.stack := rfl
@[simp] theorem setSound_sp (s : State) (v : Byte) : (setSound s v).sp = s.sp := rfl
@[simp] theorem setSound_dt (s : State) (v : Byte) : (setSound s v).dt = s.dt := rfl
@[simp] theorem setSound_st (s : State) (v : Byte) : (setSound s v).st = v := rfl
@[simp] theorem setSound_wait (s : State) (v : Byte) : (setSound s v).wait = s.wait := rfl
@[simp] theorem setSound_mem (s : State) (v : Byte) : (setSound s v).mem = s.mem := rfl
@[simp] theorem setSound_fb (s : State) (v : Byte) : (setSound s v).fb = s.fb := rfl
@[simp] theorem setSound_kq (s : State) (v : Byte) : (setSound s v).kq = s.kq := rfl
@[simp] theorem setSound_draws (s : State) (v : Byte) : (setSound s v).draws = s.draws := rfl

/-! ### `WAIT <- b` -/

@[simp] theorem setWait_r (s : State) (b : Bool) : (setWait s b).r = s.r := rfl
@[simp] theorem setWait_i (s : State) (b : Bool) : (setWait s b).i = s.i := rfl
@[simp] theorem setWait_pc (s : State) (b : Bool) : (setWait s b).pc = s.pc := rfl
@[simp] theorem setWait_stack (s : State) (b : Bool) : (setWait s b).stack = s.stack := rfl
@[simp] theorem setWait_sp (s : State) (b : Bool) : (setWait s b).sp = s.sp := rfl
@[simp] theorem setWait_dt (s : State) (b : Bool) : (setWait s b).dt = s.dt := rfl
@[simp] theorem setWait_st (s : State) (b : Bool) : (setWait s b).st = s.st := rfl
@[simp] theorem setWait_wait (s : State) (b : Bool) : (setWait s b).wait = b := rfl
@[simp] theorem setWait_mem (s : State) (b : Bool) : (setWait s b).mem = s.mem := rfl
@[simp] theorem setWait_fb (s : State) (b : Bool) : (setWait s b).fb = s.fb := rfl
@[simp] theorem setWait_kq (s : State) (b : Bool) : (setWait s b).kq = s.kq := rfl
@[simp] theorem setWait_draws (s : State) (b : Bool) : (setWait s b).draws = s.draws := rfl

/-! ### the register file -/

@[simp] theorem setRegs_r (s : State) (r : Vector Byte 16) : (setRegs s r).r = r := rfl
@[simp] theorem setRegs_i (s : State) (r : Vector Byte 16) : (setRegs s r).i = s.i := rfl
@[simp] theorem setRegs_pc (s : State) (r : Vector Byte 16) : (setRegs s r).pc = s.pc := rfl
@[simp] theorem setRegs_stack (s : State) (r : Vector Byte 16) : (setRegs s r).stack = s.stack := rfl
@[simp] theorem setRegs_sp (s : State) (r : Vector Byte 16) : (setRegs s r).sp = s.sp := rfl
@[simp] theorem setRegs_dt (s : State) (r : Vector Byte 16) : (setRegs s r).dt = s.dt := rfl
@[simp] theorem setRegs_st (s : State) (r : Vector Byte 16) : (setRegs s r).st = s.st := rfl
@[simp] theorem setRegs_wait (s : State) (r : Vector Byte 16) : (setRegs s r).wait = s.wait := rfl
@[simp] theorem setRegs_mem (s : State) (r : Vector Byte 16) : (setRegs s r).mem = s.mem := rfl
@[simp] theorem setRegs_fb (s : State) (r : Vector Byte 16) : (setRegs s r).fb = s.fb := rfl
@[simp] theorem setRegs_kq (s : State) (r : Vector Byte 16) : (setRegs s r).kq = s.kq := rfl
@[simp] theorem setRegs_draws (s : State) (r : Vector Byte 16) : (setRegs s r).draws = s.draws := rfl

/-! ### memory -/

@[simp] theorem setMemory_r (s : State) (m : Memory) : (setMemory s m).r = s.r := rfl
@[simp] theorem setMemory_i (s : State) (m : Memory) : (setMemory s m).i = s.i := rfl
@[simp] theorem setMemory_pc (s : State) (m : Memory) : (setMemory s m).pc = s.pc := rfl
@[simp] theorem setMemory_stack (s : State) (m : Memory) : (setMemory s m).stack = s.stack := rfl
@[simp] theorem setMemory_sp (s : State) (m : Memory) : (setMemory s m).sp = s.sp := rfl
@[simp] theorem setMemory_dt (s : State) (m : Memory) : (setMemory s m).dt = s.dt := rfl
@[simp] theorem setMemory_st (s : State) (m : Memory) : (setMemory s m).st = s.st := rfl
@[simp] theorem setMemory_wait (s : State) (m : Memory) : (setMemory s m).wait = s.wait := rfl
@[simp] theorem setMemory_mem (s : State) (m : Memory) : (setMemory s m).mem = m := rfl
@[simp] theorem setMemory_fb (s : State) (m : Memory) : (setMemory s m).fb = s.fb := rfl
@[simp] theorem setMemory_kq (s : State) (m : Memory) : (setMemory s m).kq = s.kq := rfl
@[simp] theorem setMemory_draws (s : State) (m : Memory) : (setMemory s m).draws = s.draws := rfl

/-! ### the framebuffer -/

@[simp] theorem setFramebuffer_r (s : State) (fb : Framebuffer) : (setFramebuffer s fb).r = s.r := rfl
@[simp] theorem setFramebuffer_i (s : State) (fb : Framebuffer) : (setFramebuffer s fb).i = s.i := rfl
@[simp] theorem setFramebuffer_pc (s : State) (fb : Framebuffer) : (setFramebuffer s fb).pc = s.pc := rfl
@[simp] theorem setFramebuffer_stack (s : State) (fb : Framebuffer) : (setFramebuffer s fb).stack = s.stack := rfl
@[simp] theorem setFramebuffer_sp (s : State) (fb : Framebuffer) : (setFramebuffer s fb).sp = s.sp := rfl
@[simp] theorem setFramebuffer_dt (s : State) (fb : Framebuffer) : (setFramebuffer s fb).dt = s.dt := rfl
@[simp] theorem setFramebuffer_st (s : State) (fb : Framebuffer) : (setFramebuffer s fb).st = s.st := rfl
@[simp] theorem setFramebuffer_wait (s : State) (fb : Framebuffer) : (setFramebuffer s fb).wait = s.wait := rfl
@[simp] theorem setFramebuffer_mem (s : State) (fb : Framebuffer) : (setFramebuffer s fb).mem = s.mem := rfl
@[simp] theorem setFramebuffer_fb (s : State) (fb : Framebuffer) : (setFramebuffer s fb).fb = fb := rfl
@[simp] theorem setFramebuffer_kq (s : State) (fb : Framebuffer) : (setFramebuffer s fb).kq = s.kq := rfl
@[simp] theorem setFramebuffer_draws (s : State) (fb : Framebuffer) : (setFramebuffer s fb).draws = s.draws := rfl

/-! ### `pc <- t` -/

@[simp] theorem jumpTo_r (s : State) (t : Nat) : (jumpTo s t).r = s.r := rfl
@[simp] theorem jumpTo_i (s : State) (t : Nat) : (jumpTo s t).i = s.i := rfl
@[simp] theorem jumpTo_pc (s : State) (t : Nat) : (jumpTo s t).pc = t := rfl
@[simp] theorem jumpTo_stack (s : State) (t : Nat) : (jumpTo s t).stack = s.stack := rfl
@[simp] theorem jumpTo_sp (s : State) (t : Nat) : (jumpTo s t).sp = s.sp := rfl
@[simp] theorem jumpTo_dt (s : State) (t : Nat) : (jumpTo s t).dt = s.dt := rfl
@[simp] theorem jumpTo_st (s : State) (t : Nat) : (jumpTo s t).st = s.st := rfl
@[simp] theorem jumpTo_wait (s : State) (t : Nat) : (jumpTo s t).wait = s.wait := rfl
@[simp] theorem jumpTo_mem (s : State) (t : Nat) : (jumpTo s t).mem = s.mem := rfl
@[simp] theorem jumpTo_fb (s : State) (t : Nat) : (jumpTo s t).fb = s.fb := rfl
@[simp] theorem jumpTo_kq (s : State) (t : Nat) : (jumpTo s t).kq = s.kq := rfl
@[simp] theorem jumpTo_draws (s : State) (t : Nat) : (jumpTo s t).draws = s.draws := rfl

/-! ### the tick -/

@[simp] theorem tickTimers_r (s : State) : (tickTimers s).r = s.r := rfl
@[simp] theorem tickTimers_i (s : State) : (tickTimers s).i = s.i := rfl
@[simp] theorem tickTimers_pc (s : State) : (tickTimers s).pc = s.pc := rfl
@[simp] theorem tickTimers_stack (s : State) : (tickTimers s).stack = s.stack := rfl
@[simp] theorem tickTimers_sp (s : State) : (tickTimers s).sp = s.sp := rfl
@[simp] theorem tickTimers_dt (s : State) : (tickTimers s).dt = tickTimer s.dt := rfl
@[simp] theorem tickTimers_st (s : State) : (tickTimers s).st = tickTimer s.st := rfl
@[simp] theorem tickTimers_wait (s : State) : (tickTimers s).wait = s.wait := rfl
@[simp] theorem tickTimers_mem (s : State) : (tickTimers s).mem = s.mem := rfl
@[simp] theorem tickTimers_fb (s : State) : (tickTimers s).fb = s.fb := rfl
@[simp] theorem tickTimers_kq (s : State) : (tickTimers s).kq = s.kq := rfl
@[simp] theorem tickTimers_draws (s : State) : (tickTimers s).draws = s.draws := rfl

/-! ### `KQ.pop()` -/

@[simp] theorem popKey_r (s : State) : ((popKey s).2).r = s.r := rfl
@[simp] theorem popKey_i (s : State) : ((popKey s).2).i = s.i := rfl
@[simp] theorem popKey_pc (s : State) : ((popKey s).2).pc = s.pc := rfl
@[simp] theorem popKey_stack (s : State) : ((popKey s).2).stack = s.stack := rfl
@[simp] theorem popKey_sp (s : State) : ((popKey s).2).sp = s.sp := rfl
@[simp] theorem popKey_dt (s : State) : ((popKey s).2).dt = s.dt := rfl
@[simp] theorem popKey_st (s : State) : ((popKey s).2).st = s.st := rfl
@[simp] theorem popKey_wait (s : State) : ((popKey s).2).wait = s.wait := rfl
@[simp] theorem popKey_mem (s : State) : ((popKey s).2).mem = s.mem := rfl
@[simp] theorem popKey_fb (s : State) : ((popKey s).2).fb = s.fb := rfl
@[simp] theorem popKey_kq (s : State) : ((popKey s).2).kq = dropOldestKey s.kq := rfl
@[simp] theorem popKey_draws (s : State) : ((popKey s).2).draws = s.draws := rfl

/-! ### `draw_byte()` -/

@[simp] theorem drawByte_r (s : State) : ((drawByte s).2).r = s.r := rfl
@[simp] theorem drawByte_i (s : State) : ((drawByte s).2).i = s.i := rfl
@[simp] theorem drawByte_pc (s : State) : ((drawByte s).2).pc = s.pc := rfl
@[simp] theorem drawByte_stack (s : State) : ((drawByte s).2).stack = s.stack := rfl
@[simp] theorem drawByte_sp (s : State) : ((drawByte s).2).sp = s.sp := rfl
@[simp] theorem drawByte_dt (s : State) : ((drawByte s).2).dt = s.dt := rfl
@[simp] theorem drawByte_st (s : State) : ((drawByte s).2).st = s.st := rfl
@[simp] theorem drawByte_wait (s : State) : ((drawByte s).2).wait = s.wait := rfl
@[simp] theorem drawByte_mem (s : State) : ((drawByte s).2).mem = s.mem := rfl
@[simp] theorem drawByte_fb (s : State) : ((drawByte s).2).fb = s.fb := rfl
@[simp] theorem drawByte_kq (s : State) : ((drawByte s).2).kq = s.kq := rfl
@[simp] theorem drawByte_draws (s : State) : ((drawByte s).2).draws = s.draws + 1 := rfl

/-! ### A conditional skip -/

@[simp] theorem skipIf_pc (c : Bool) (s : State) :
    (skipIf c s).pc = if c then s.pc + 2 else s.pc := by cases c <;> rfl
@[simp] theorem skipIf_r (c : Bool) (s : State) : (skipIf c s).r = s.r := by cases c <;> rfl
@[simp] theorem skipIf_i (c : Bool) (s : State) : (skipIf c s).i = s.i := by cases c <;> rfl
@[simp] theorem skipIf_stack (c : Bool) (s : State) : (skipIf c s).stack = s.stack := by cases c <;> rfl
@[simp] theorem skipIf_sp (c : Bool) (s : State) : (skipIf c s).sp = s.sp := by cases c <;> rfl
@[simp] theorem skipIf_dt (c : Bool) (s : State) : (skipIf c s).dt = s.dt := by cases c <;> rfl
@[simp] theorem skipIf_st (c : Bool) (s : State) : (skipIf c s).st = s.st := by cases c <;> rfl
@[simp] theorem skipIf_wait (c : Bool) (s : State) : (skipIf c s).wait = s.wait := by cases c <;> rfl
@[simp] theorem skipIf_mem (c : Bool) (s : State) : (skipIf c s).mem = s.mem := by cases c <;> rfl
@[simp] theorem skipIf_fb (c : Bool) (s : State) : (skipIf c s).fb = s.fb := by cases c <;> rfl
@[simp] theorem skipIf_kq (c : Bool) (s : State) : (skipIf c s).kq = s.kq := by cases c <;> rfl
@[simp] theorem skipIf_draws (c : Bool) (s : State) : (skipIf c s).draws = s.draws := by cases c <;> rfl

/-! ### A push: the fields it can change are in Laws/Ops.lean -/

@[simp] theorem pushPc_r (s : State) : (pushPc s).r = s.r := by unfold pushPc; split <;> rfl
@[simp] theorem pushPc_i (s : State) : (pushPc s).i = s.i := by unfold pushPc; split <;> rfl
@[simp] theorem pushPc_pc (s : State) : (pushPc s).pc = s.pc := by unfold pushPc; split <;> rfl
@[simp] theorem pushPc_dt (s : State) : (pushPc s).dt = s.dt := by unfold pushPc; split <;> rfl
@[simp] theorem pushPc_st (s : State) : (pushPc s).st = s.st := by unfold pushPc; split <;> rfl
@[simp] theorem pushPc_wait (s : State) : (pushPc s).wait = s.wait := by unfold pushPc; split <;> rfl
@[simp] theorem pushPc_mem (s : State) : (pushPc s).mem = s.mem := by unfold pushPc; split <;> rfl
@[simp] theorem pushPc_fb (s : State) : (pushPc s).fb = s.fb := by unfold pushPc; split <;> rfl
@[simp] theorem pushPc_kq (s : State) : (pushPc s).kq = s.kq := by unfold pushPc; split <;> rfl
@[simp] theorem pushPc_draws (s : State) : (pushPc s).draws = s.draws := by unfold pushPc; split <;> rfl

/-! ### The `PC` advance -/

@[simp] theorem advancePc_pc (instr : Instr) (s : State) :
    (advancePc instr s).pc = if setsPc instr || s.wait then s.pc else s.pc + 2 := by
  unfold advancePc; split <;> rfl
@[simp] theorem advancePc_r (instr : Instr) (s : State) : (advancePc instr s).r = s.r := by
  unfold advancePc; split <;> rfl
@[simp] theorem advancePc_i (instr : Instr) (s : State) : (advancePc instr s).i = s.i := by
  unfold advancePc; split <;> rfl
@[simp] theorem advancePc_stack (instr : Instr) (s : State) : (advancePc instr s).stack = s.stack := by
  unfold advancePc; split <;> rfl
@[simp] theorem advancePc_sp (instr : Instr) (s : State) : (advancePc instr s).sp = s.sp := by
  unfold advancePc; split <;> rfl
@[simp] theorem advancePc_dt (instr : Instr) (s : State) : (advancePc instr s).dt = s.dt := by
  unfold advancePc; split <;> rfl
@[simp] theorem advancePc_st (instr : Instr) (s : State) : (advancePc instr s).st = s.st := by
  unfold advancePc; split <;> rfl
@[simp] theorem advancePc_wait (instr : Instr) (s : State) : (advancePc instr s).wait = s.wait := by
  unfold advancePc; split <;> rfl
@[simp] theorem advancePc_mem (instr : Instr) (s : State) : (advancePc instr s).mem = s.mem := by
  unfold advancePc; split <;> rfl
@[simp] theorem advancePc_fb (instr : Instr) (s : State) : (advancePc instr s).fb = s.fb := by
  unfold advancePc; split <;> rfl
@[simp] theorem advancePc_kq (instr : Instr) (s : State) : (advancePc instr s).kq = s.kq := by
  unfold advancePc; split <;> rfl
@[simp] theorem advancePc_draws (instr : Instr) (s : State) : (advancePc instr s).draws = s.draws := by
  unfold advancePc; split <;> rfl

/-! ### The end of a cycle -/

@[simp] theorem endCycle_pc (instr : Instr) (s : State) :
    (endCycle instr s).pc = if setsPc instr || s.wait then s.pc else s.pc + 2 := by simp [endCycle]
@[simp] theorem endCycle_r (instr : Instr) (s : State) : (endCycle instr s).r = s.r := by
  simp [endCycle]
@[simp] theorem endCycle_i (instr : Instr) (s : State) : (endCycle instr s).i = s.i := by
  simp [endCycle]
@[simp] theorem endCycle_stack (instr : Instr) (s : State) : (endCycle instr s).stack = s.stack := by
  simp [endCycle]
@[simp] theorem endCycle_sp (instr : Instr) (s : State) : (endCycle instr s).sp = s.sp := by
  simp [endCycle]
@[simp] theorem endCycle_dt (instr : Instr) (s : State) : (endCycle instr s).dt = tickTimer s.dt := by
  simp [endCycle]
@[simp] theorem endCycle_st (instr : Instr) (s : State) : (endCycle instr s).st = tickTimer s.st := by
  simp [endCycle]
@[simp] theorem endCycle_wait (instr : Instr) (s : State) : (endCycle instr s).wait = s.wait := by
  simp [endCycle]
@[simp] theorem endCycle_mem (instr : Instr) (s : State) : (endCycle instr s).mem = s.mem := by
  simp [endCycle]
@[simp] theorem endCycle_fb (instr : Instr) (s : State) : (endCycle instr s).fb = s.fb := by
  simp [endCycle]
@[simp] theorem endCycle_kq (instr : Instr) (s : State) : (endCycle instr s).kq = s.kq := by
  simp [endCycle]
@[simp] theorem endCycle_draws (instr : Instr) (s : State) : (endCycle instr s).draws = s.draws := by
  simp [endCycle]

end Sys2Proof.Machine
end

