-- ==== Sys2Proof/Laws/Ops.lean ====
section
/-! SUPPORT. One lemma per shared operation that says what it does, which later proofs cite instead of
unfolding it. -/

namespace Sys2Proof.Machine

/-! ### Registers -/

/-- A register after a register write (R10: no register is hardwired or aliased). -/
@[simp] theorem getReg_setReg (s : State) (x y : RegId) (v : Byte) :
    getReg (setReg s x v) y = if y = x then v else getReg s y := by
  simp only [getReg, setReg, Vector.get_eq_getElem, Vector.getElem_set, Fin.ext_iff, eq_comm]

/-- A register after the flag write (R13). -/
@[simp] theorem getReg_setFlag (s : State) (f : Byte) (y : RegId) :
    getReg (setFlag s f) y = if y = 15 then f else getReg s y := getReg_setReg s 15 y f

/-- A register after a result and a flag: the flag wins in `R[15]` (R15). -/
@[simp] theorem getReg_setRegThenFlag (s : State) (x y : RegId) (v f : Byte) :
    getReg (setRegThenFlag s x v f) y = if y = 15 then f else if y = x then v else getReg s y := by
  simp [setRegThenFlag]

/-! Every other update leaves every register alone. -/

@[simp] theorem getReg_setIndex (s : State) (v : Addr) (k : RegId) : getReg (setIndex s v) k = getReg s k := by simp [getReg]

@[simp] theorem getReg_jumpTo (s : State) (target : Nat) (k : RegId) : getReg (jumpTo s target) k = getReg s k := by simp [getReg]

@[simp] theorem getReg_skipIf (c : Bool) (s : State) (k : RegId) : getReg (skipIf c s) k = getReg s k := by simp [getReg]

@[simp] theorem getReg_pushPc (s : State) (k : RegId) : getReg (pushPc s) k = getReg s k := by simp [getReg]

@[simp] theorem getReg_popKey (s : State) (k : RegId) : getReg ((popKey s).2) k = getReg s k := by simp [getReg]

@[simp] theorem getReg_drawByte (s : State) (k : RegId) : getReg ((drawByte s).2) k = getReg s k := by simp [getReg]

@[simp] theorem getReg_endCycle (instr : Instr) (s : State) (k : RegId) : getReg (endCycle instr s) k = getReg s k := by simp [getReg]

@[simp] theorem getReg_setDelay (s : State) (v : Byte) (k : RegId) : getReg (setDelay s v) k = getReg s k := by simp [getReg]

@[simp] theorem getReg_setSound (s : State) (v : Byte) (k : RegId) : getReg (setSound s v) k = getReg s k := by simp [getReg]

@[simp] theorem getReg_setWait (s : State) (b : Bool) (k : RegId) : getReg (setWait s b) k = getReg s k := by simp [getReg]

@[simp] theorem getReg_setMemory (s : State) (m : Memory) (k : RegId) : getReg (setMemory s m) k = getReg s k := by simp [getReg]

@[simp] theorem getReg_setFramebuffer (s : State) (fb : Framebuffer) (k : RegId) : getReg (setFramebuffer s fb) k = getReg s k := by simp [getReg]

/-- A register of a replaced register file. -/
@[simp] theorem getReg_setRegs (s : State) (r : Vector Byte 16) (k : RegId) :
    getReg (setRegs s r) k = r.get k := rfl

/-- A register after a block load (R145). -/
theorem get_loadRegs (m : Memory) (base : Nat) (x k : RegId) (r : Vector Byte 16) :
    (loadRegs m base x r).get k = if k ≤ x then m.read (base + k.val) else r.get k := by
  simp [loadRegs, Vector.get_eq_getElem]

/-- A block store has one byte for each of `R[0]` to `R[x]` (R144). -/
@[simp] theorem length_regsUpTo (s : State) (x : RegId) : (regsUpTo s x).length = x.val + 1 := by
  simp only [regsUpTo, List.length_take, Vector.length_toList]
  omega

/-- The `k`-th byte of a block store is `R[k]` (R144). -/
theorem getD_regsUpTo (s : State) (x k : RegId) (h : k ≤ x) : (regsUpTo s x).getD k.val 0 = getReg s k := by
  have hk : k.val < x.val + 1 := Nat.lt_succ_of_le h
  simp [regsUpTo, getReg, List.getD, hk, Vector.get_eq_getElem]

/-! ### The call stack -/

/-- The stack after a push onto a stack that is not full: the entry at `SP` is the `PC` (R101). -/
theorem get_pushPc_stack (s : State) (h : s.sp.val ≠ 16) (k : Fin 16) :
    (pushPc s).stack.get k = if k.val = s.sp.val then s.pc else s.stack.get k := by
  simp only [pushPc, h, dif_neg, not_false_eq_true, Vector.get_eq_getElem, Vector.getElem_set]
  simp only [eq_comm]

/-- The stack after a push onto a full stack: the top entry is overwritten (R101). -/
theorem get_pushPc_stack_full (s : State) (h : s.sp.val = 16) (k : Fin 16) :
    (pushPc s).stack.get k = if k = 15 then s.pc else s.stack.get k := by
  simp only [pushPc, h, dif_pos, Vector.get_eq_getElem, Vector.getElem_set, Fin.ext_iff,
    eq_comm]
  rfl

/-- A push increments `SP` unless the stack is full (R101). -/
theorem pushPc_sp_val (s : State) :
    (pushPc s).sp.val = if s.sp.val = 16 then 16 else s.sp.val + 1 := by
  unfold pushPc
  split
  · exact ‹s.sp.val = 16›
  · rfl

/-- A push reports `StackOverflow` exactly when the stack is full (R101). -/
theorem pushStatus_eq (s : State) : pushStatus s = if s.sp.val = 16 then .stackOverflow else .ok := rfl

/-- Every stack entry after a push is the `PC` or an entry from before (R101). -/
theorem pushPc_stack_bound (s : State) (b : Nat) (hpc : s.pc ≤ b) (hs : ∀ k, s.stack.get k ≤ b)
    (k : Fin 16) : (pushPc s).stack.get k ≤ b := by
  by_cases h : s.sp.val = 16
  · rw [get_pushPc_stack_full s h]; split <;> simp_all
  · rw [get_pushPc_stack s h]; split <;> simp_all

/-- A pop on an empty stack answers nothing (R102). -/
theorem popPc_empty (s : State) (h : s.sp.val = 0) : popPc s = none := by simp [popPc, h]

/-- A pop answers the top entry and changes `SP` only (R102). -/
theorem popPc_some (s : State) (h : s.sp.val ≠ 0) :
    popPc s = some (s.stack.get ⟨s.sp.val - 1, by omega⟩, { s with sp := ⟨s.sp.val - 1, by omega⟩ }) := by
  simp [popPc, h]

/-! ### The range check and fetch -/

/-- The check of a data access of `n` bytes from `I` (R43). -/
theorem rangeInMemory_iff (s : State) (n : Nat) :
    rangeInMemory s n = true ↔ n = 0 ∨ s.i.toNat + (n - 1) < 4096 := by
  rw [rangeInMemory, Bool.or_eq_true, beq_iff_eq, decide_eq_true_iff]
  rfl

/-- Fetch answers the two bytes at `PC`, or nothing when `PC >= 4095` (R211). -/
theorem fetch_eq (s : State) :
    fetch s = if s.pc + 1 < 4096 then some (wordOf (s.mem.read s.pc) (s.mem.read (s.pc + 1))) else none :=
  rfl

/-- A fetch that answered was from an address of at most 4094 (R211). -/
theorem fetch_some {s : State} {w : Word} (h : fetch s = some w) : s.pc ≤ 4094 := by
  rw [fetch_eq] at h
  split at h
  · omega
  · cases h

/-! ### A whole cycle -/

/-- What a completed cycle did: it fetched a word, decoded it, executed it, and ended the cycle (R210). -/
theorem step_next {s t : State} (h : step s = .next t) :
    ∃ w instr u, fetch s = some w ∧ decodeWord w = .ok instr ∧
      exec instr s = .next u ∧ t = endCycle instr u := by
  unfold step at h
  split at h
  · cases h
  · rename_i w hw
    split at h
    · cases h
    · rename_i instr hd
      generalize hu : exec instr s = res at h
      cases res with
      | next u => exact ⟨w, instr, u, hw, hd, hu, by cases h; rfl⟩
      | fault e => cases h
      | refused e => cases h

/-- A cycle whose word decodes runs that instruction (R210). -/
theorem step_decoded {s : State} {w : Word} {instr : Instr} (hw : fetch s = some w)
    (hd : decodeWord w = .ok instr) : step s = finishCycle instr (exec instr s) := by
  simp [step, hw, hd]

/-- Only a CALL reports anything but `OK` (R217, R257). -/
theorem execStatus_eq (instr : Instr) (s : State) :
    execStatus instr s = match instr with | .call _ => pushStatus s | _ => .ok := by
  cases instr <;> rfl

/-- The status of a cycle whose word decodes is that of its instruction (R217). -/
theorem reportedStatus_decoded {s : State} {w : Word} {instr : Instr} (hw : fetch s = some w)
    (hd : decodeWord w = .ok instr) : reportedStatus s = execStatus instr s := by
  simp [reportedStatus, hw, hd]

end Sys2Proof.Machine
end

