-- ==== Sys2Proof/Laws/PerInstr.lean ====
section
/-! SUPPORT. One statement about every instruction as syntax, with one lemma per constructor: its encoding
is selected by its own row of the opcode map, whatever its operands. -/

namespace Sys2Proof.Laws.EncodingRow

open Sys2Proof

/-- The row of the instruction's tag is one of the map, and its mask and match select the instruction's
encoding (R64, R65). -/
def Statement (i : Instr) : Prop :=
  opcodeRow i ∈ opcodeRows ∧ (opcodeRow i).selects (encode i) = true

/-- The top nibble of a word is its group (R61). -/
theorem mask_group (w : Word) : w &&& 0xF000 = BitVec.ofNat 16 (fieldG w) <<< 12 := by
  rw [fieldG, BitVec.ofNat_toNat]
  ext k hk
  interval_cases k <;> simp

/-- The top and the low nibble of a word are its group and `N` (R61). -/
theorem mask_nibble (w : Word) :
    w &&& 0xF00F = BitVec.ofNat 16 (fieldG w) <<< 12 ||| (fieldN w).setWidth 16 := by
  rw [← mask_group, fieldN]
  ext k hk
  interval_cases k <;> simp

/-- The top nibble and the low byte of a word are its group and `NN` (R61). -/
theorem mask_byte (w : Word) :
    w &&& 0xF0FF = BitVec.ofNat 16 (fieldG w) <<< 12 ||| (fieldNN w).setWidth 16 := by
  rw [← mask_group, fieldNN]
  ext k hk
  interval_cases k <;> simp

/-- A word whose group is that of a group row is selected by it. -/
theorem selects_group {w p : Word} {g : Nat} (hg : fieldG w = g) (hp : BitVec.ofNat 16 g <<< 12 = p) :
    OpcodeRow.selects ⟨0xF000, p⟩ w = true := by
  rw [OpcodeRow.selects, beq_iff_eq]
  exact (mask_group w).trans (by rw [hg, hp])

/-- A word whose group and low nibble are those of a nibble row is selected by it. -/
theorem selects_nibble {w p : Word} {g : Nat} {n : Nibble} (hg : fieldG w = g) (hn : fieldN w = n)
    (hp : BitVec.ofNat 16 g <<< 12 ||| n.setWidth 16 = p) : OpcodeRow.selects ⟨0xF00F, p⟩ w = true := by
  rw [OpcodeRow.selects, beq_iff_eq]
  exact (mask_nibble w).trans (by rw [hg, hn, hp])

/-- A word whose group and low byte are those of a byte row is selected by it. -/
theorem selects_byte {w p : Word} {g : Nat} {nn : Byte} (hg : fieldG w = g) (hn : fieldNN w = nn)
    (hp : BitVec.ofNat 16 g <<< 12 ||| nn.setWidth 16 = p) : OpcodeRow.selects ⟨0xF0FF, p⟩ w = true := by
  rw [OpcodeRow.selects, beq_iff_eq]
  exact (mask_byte w).trans (by rw [hg, hn, hp])

/-- Whether a row is one of the map is a matter of looking. -/
theorem row_mem (row : OpcodeRow) (h : decide (row ∈ opcodeRows) = true) : row ∈ opcodeRows :=
  of_decide_eq_true h

theorem cls : Statement .cls := ⟨row_mem _ rfl, rfl⟩

theorem ret : Statement .ret := ⟨row_mem _ rfl, rfl⟩

theorem jp (nnn : Addr) : Statement (.jp nnn) :=
  ⟨row_mem _ rfl, selects_group (fieldG_encodeA 0x1 (by decide) nnn) (by decide)⟩

theorem call (nnn : Addr) : Statement (.call nnn) :=
  ⟨row_mem _ rfl, selects_group (fieldG_encodeA 0x2 (by decide) nnn) (by decide)⟩

theorem seImm (x : RegId) (nn : Byte) : Statement (.seImm x nn) :=
  ⟨row_mem _ rfl, selects_group (fieldG_encodeXI 0x3 (by decide) x nn) (by decide)⟩

theorem sneImm (x : RegId) (nn : Byte) : Statement (.sneImm x nn) :=
  ⟨row_mem _ rfl, selects_group (fieldG_encodeXI 0x4 (by decide) x nn) (by decide)⟩

theorem seReg (x y : RegId) : Statement (.seReg x y) :=
  ⟨row_mem _ rfl, selects_nibble (fieldG_encodeXYN 0x5 (by decide) x y 0x0) (fieldN_encodeXYN 0x5 (by decide) x y 0x0)
    (by decide)⟩

theorem ldImm (x : RegId) (nn : Byte) : Statement (.ldImm x nn) :=
  ⟨row_mem _ rfl, selects_group (fieldG_encodeXI 0x6 (by decide) x nn) (by decide)⟩

theorem addImm (x : RegId) (nn : Byte) : Statement (.addImm x nn) :=
  ⟨row_mem _ rfl, selects_group (fieldG_encodeXI 0x7 (by decide) x nn) (by decide)⟩

theorem ldReg (x y : RegId) : Statement (.ldReg x y) :=
  ⟨row_mem _ rfl, selects_nibble (fieldG_encodeXYN 0x8 (by decide) x y 0x0) (fieldN_encodeXYN 0x8 (by decide) x y 0x0)
    (by decide)⟩

theorem orReg (x y : RegId) : Statement (.orReg x y) :=
  ⟨row_mem _ rfl, selects_nibble (fieldG_encodeXYN 0x8 (by decide) x y 0x1) (fieldN_encodeXYN 0x8 (by decide) x y 0x1)
    (by decide)⟩

theorem andReg (x y : RegId) : Statement (.andReg x y) :=
  ⟨row_mem _ rfl, selects_nibble (fieldG_encodeXYN 0x8 (by decide) x y 0x2) (fieldN_encodeXYN 0x8 (by decide) x y 0x2)
    (by decide)⟩

theorem xorReg (x y : RegId) : Statement (.xorReg x y) :=
  ⟨row_mem _ rfl, selects_nibble (fieldG_encodeXYN 0x8 (by decide) x y 0x3) (fieldN_encodeXYN 0x8 (by decide) x y 0x3)
    (by decide)⟩

theorem addReg (x y : RegId) : Statement (.addReg x y) :=
  ⟨row_mem _ rfl, selects_nibble (fieldG_encodeXYN 0x8 (by decide) x y 0x4) (fieldN_encodeXYN 0x8 (by decide) x y 0x4)
    (by decide)⟩

theorem subReg (x y : RegId) : Statement (.subReg x y) :=
  ⟨row_mem _ rfl, selects_nibble (fieldG_encodeXYN 0x8 (by decide) x y 0x5) (fieldN_encodeXYN 0x8 (by decide) x y 0x5)
    (by decide)⟩

theorem shr (x y : RegId) : Statement (.shr x y) :=
  ⟨row_mem _ rfl, selects_nibble (fieldG_encodeXYN 0x8 (by decide) x y 0x6) (fieldN_encodeXYN 0x8 (by decide) x y 0x6)
    (by decide)⟩

theorem subn (x y : RegId) : Statement (.subn x y) :=
  ⟨row_mem _ rfl, selects_nibble (fieldG_encodeXYN 0x8 (by decide) x y 0x7) (fieldN_encodeXYN 0x8 (by decide) x y 0x7)
    (by decide)⟩

theorem shl (x y : RegId) : Statement (.shl x y) :=
  ⟨row_mem _ rfl, selects_nibble (fieldG_encodeXYN 0x8 (by decide) x y 0xE) (fieldN_encodeXYN 0x8 (by decide) x y 0xE)
    (by decide)⟩

theorem sneReg (x y : RegId) : Statement (.sneReg x y) :=
  ⟨row_mem _ rfl, selects_nibble (fieldG_encodeXYN 0x9 (by decide) x y 0x0) (fieldN_encodeXYN 0x9 (by decide) x y 0x0)
    (by decide)⟩

theorem ldI (nnn : Addr) : Statement (.ldI nnn) :=
  ⟨row_mem _ rfl, selects_group (fieldG_encodeA 0xA (by decide) nnn) (by decide)⟩

theorem jpV0 (nnn : Addr) : Statement (.jpV0 nnn) :=
  ⟨row_mem _ rfl, selects_group (fieldG_encodeA 0xB (by decide) nnn) (by decide)⟩

theorem rnd (x : RegId) (nn : Byte) : Statement (.rnd x nn) :=
  ⟨row_mem _ rfl, selects_group (fieldG_encodeXI 0xC (by decide) x nn) (by decide)⟩

theorem drw (x y : RegId) (n : Nibble) : Statement (.drw x y n) :=
  ⟨row_mem _ rfl, selects_group (fieldG_encodeXYN 0xD (by decide) x y n) (by decide)⟩

theorem skp (x : RegId) : Statement (.skp x) :=
  ⟨row_mem _ rfl, selects_byte (fieldG_encodeXI 0xE (by decide) x 0x9E) (fieldNN_encodeXI 0xE (by decide) x 0x9E)
    (by decide)⟩

theorem sknp (x : RegId) : Statement (.sknp x) :=
  ⟨row_mem _ rfl, selects_byte (fieldG_encodeXI 0xE (by decide) x 0xA1) (fieldNN_encodeXI 0xE (by decide) x 0xA1)
    (by decide)⟩

theorem ldVxDt (x : RegId) : Statement (.ldVxDt x) :=
  ⟨row_mem _ rfl, selects_byte (fieldG_encodeXI 0xF (by decide) x 0x07) (fieldNN_encodeXI 0xF (by decide) x 0x07)
    (by decide)⟩

theorem ldVxK (x : RegId) : Statement (.ldVxK x) :=
  ⟨row_mem _ rfl, selects_byte (fieldG_encodeXI 0xF (by decide) x 0x0A) (fieldNN_encodeXI 0xF (by decide) x 0x0A)
    (by decide)⟩

theorem ldDtVx (x : RegId) : Statement (.ldDtVx x) :=
  ⟨row_mem _ rfl, selects_byte (fieldG_encodeXI 0xF (by decide) x 0x15) (fieldNN_encodeXI 0xF (by decide) x 0x15)
    (by decide)⟩

theorem ldStVx (x : RegId) : Statement (.ldStVx x) :=
  ⟨row_mem _ rfl, selects_byte (fieldG_encodeXI 0xF (by decide) x 0x18) (fieldNN_encodeXI 0xF (by decide) x 0x18)
    (by decide)⟩

theorem addIVx (x : RegId) : Statement (.addIVx x) :=
  ⟨row_mem _ rfl, selects_byte (fieldG_encodeXI 0xF (by decide) x 0x1E) (fieldNN_encodeXI 0xF (by decide) x 0x1E)
    (by decide)⟩

theorem ldFVx (x : RegId) : Statement (.ldFVx x) :=
  ⟨row_mem _ rfl, selects_byte (fieldG_encodeXI 0xF (by decide) x 0x29) (fieldNN_encodeXI 0xF (by decide) x 0x29)
    (by decide)⟩

theorem ldBVx (x : RegId) : Statement (.ldBVx x) :=
  ⟨row_mem _ rfl, selects_byte (fieldG_encodeXI 0xF (by decide) x 0x33) (fieldNN_encodeXI 0xF (by decide) x 0x33)
    (by decide)⟩

theorem ldMemVx (x : RegId) : Statement (.ldMemVx x) :=
  ⟨row_mem _ rfl, selects_byte (fieldG_encodeXI 0xF (by decide) x 0x55) (fieldNN_encodeXI 0xF (by decide) x 0x55)
    (by decide)⟩

theorem ldVxMem (x : RegId) : Statement (.ldVxMem x) :=
  ⟨row_mem _ rfl, selects_byte (fieldG_encodeXI 0xF (by decide) x 0x65) (fieldNN_encodeXI 0xF (by decide) x 0x65)
    (by decide)⟩

end Sys2Proof.Laws.EncodingRow
end

