-- ==== Sys2Proof/Tests/Slice0.lean ====
section
/-! SUPPORT. The model's own tests. Expected values come from spec/95_test_vectors.md (the vector's id is
in each name or docstring) or are worked out from the encoding tables of spec/30_encoding.md. Then one
witness for every statement that has hypotheses: a concrete state and operands that meet them. -/

namespace Sys2Proof.Tests

open Sys2Proof.Machine Sys2Proof.Claims Sys2Proof.Safety

/-! ### Small states -/

/-- The state with one instruction word where the next cycle fetches. -/
def word (w : Nat) (s : State) : State := s.withFetchWord 16 w

/-- The state with `PC` moved. -/
def atPc (pc : Nat) (s : State) : State := { s with pc := pc }

/-- The state with bytes in memory. -/
def bytes (a : Nat) (vs : List Byte) (s : State) : State := { s with mem := s.mem.writeBytes a vs }

/-- The state with registers set. -/
def regs (l : List (RegId × Byte)) (s : State) : State := l.foldl (fun t p => setReg t p.1 p.2) s

/-- The state with `I` set. -/
def index (i : Addr) (s : State) : State := { s with i := i }

/-- The state with `DT` and `ST` set. -/
def timers (dt st : Byte) (s : State) : State := { s with dt := dt, st := st }

/-- The state with a stack of `sp` entries, all equal to `v`. -/
def stacked (sp : Fin 17) (v : Nat) (s : State) : State :=
  { s with sp := sp, stack := Vector.replicate 16 v }

/-- The state with keys pending. -/
def keys (q : List Key) (s : State) : State := { s with kq := q }

/-- The state with `WAIT = 1`. -/
def waiting (s : State) : State := { s with wait := true }

/-- The state with one framebuffer byte set. -/
def lit (j : Fin 256) (b : Byte) (s : State) : State := { s with fb := s.fb.set j b j.isLt }

/-- Reset. -/
abbrev z : State := State.reset

/-- The outcome is a next state of which this holds. -/
def after (r : Result) (p : State → Bool) : Bool :=
  match r with
  | .next t => p t
  | _ => false

/-- The outcome is this fault. -/
def stops (r : Result) (e : Fault) : Bool :=
  match r with
  | .fault f => f == e
  | _ => false

/-- An outcome that is a next state is one. -/
theorem next_of_after {r : Result} (h : after r (fun _ => true) = true) : ∃ t, r = .next t := by
  cases r with
  | next t => exact ⟨t, rfl⟩
  | fault e => cases h
  | refused e => cases h

/-- An outcome that is this fault is it. -/
theorem fault_of_stops {r : Result} {e : Fault} (h : stops r e = true) : r = .fault e := by
  cases r with
  | next t => cases h
  | fault f => exact congrArg _ (eq_of_beq h)
  | refused f => cases h

/-! ### Decoding: one word of every row, written out from its format and patterns (R61, R62, R65) -/

theorem decode_cls : decodeWord 0b0000_0000_1110_0000 = .ok .cls := by decide
theorem decode_ret : decodeWord 0b0000_0000_1110_1110 = .ok .ret := by decide
theorem decode_jp : decodeWord 0b0001_1111_1111_1110 = .ok (.jp 0xFFE) := by decide
theorem decode_call : decodeWord 0b0010_1010_1011_1100 = .ok (.call 0xABC) := by decide
theorem decode_seImm : decodeWord 0b0011_0010_1001_0110 = .ok (.seImm 2 0x96) := by decide
theorem decode_sneImm : decodeWord 0b0100_1101_0000_0001 = .ok (.sneImm 13 1) := by decide
theorem decode_seReg : decodeWord 0b0101_1010_1011_0000 = .ok (.seReg 10 11) := by decide
theorem decode_ldImm : decodeWord 0b0110_1111_0111_1111 = .ok (.ldImm 15 0x7F) := by decide
theorem decode_addImm : decodeWord 0b0111_0001_1111_1111 = .ok (.addImm 1 0xFF) := by decide
theorem decode_ldReg : decodeWord 0b1000_1111_0001_0000 = .ok (.ldReg 15 1) := by decide
theorem decode_orReg : decodeWord 0b1000_0010_0100_0001 = .ok (.orReg 2 4) := by decide
theorem decode_andReg : decodeWord 0b1000_0010_0100_0010 = .ok (.andReg 2 4) := by decide
theorem decode_xorReg : decodeWord 0b1000_0010_0100_0011 = .ok (.xorReg 2 4) := by decide
theorem decode_addReg : decodeWord 0b1000_1010_1011_0100 = .ok (.addReg 10 11) := by decide
theorem decode_subReg : decodeWord 0b1000_0010_0100_0101 = .ok (.subReg 2 4) := by decide
theorem decode_shr : decodeWord 0b1000_0010_0100_0110 = .ok (.shr 2 4) := by decide
theorem decode_subn : decodeWord 0b1000_0010_0100_0111 = .ok (.subn 2 4) := by decide
theorem decode_shl : decodeWord 0b1000_0010_0100_1110 = .ok (.shl 2 4) := by decide
theorem decode_sneReg : decodeWord 0b1001_1111_0001_0000 = .ok (.sneReg 15 1) := by decide
theorem decode_ldI : decodeWord 0b1010_1011_1100_1101 = .ok (.ldI 0xBCD) := by decide
theorem decode_jpV0 : decodeWord 0b1011_0010_1111_1110 = .ok (.jpV0 0x2FE) := by decide
theorem decode_rnd : decodeWord 0b1100_1111_0000_1111 = .ok (.rnd 15 0x0F) := by decide
theorem decode_drw : decodeWord 0b1101_0001_0010_1111 = .ok (.drw 1 2 15) := by decide
theorem decode_skp : decodeWord 0b1110_0001_1001_1110 = .ok (.skp 1) := by decide
theorem decode_sknp : decodeWord 0b1110_1111_1010_0001 = .ok (.sknp 15) := by decide
theorem decode_ldVxDt : decodeWord 0b1111_0010_0000_0111 = .ok (.ldVxDt 2) := by decide
theorem decode_ldVxK : decodeWord 0b1111_0011_0000_1010 = .ok (.ldVxK 3) := by decide
theorem decode_ldDtVx : decodeWord 0b1111_0001_0001_0101 = .ok (.ldDtVx 1) := by decide
theorem decode_ldStVx : decodeWord 0b1111_0001_0001_1000 = .ok (.ldStVx 1) := by decide
theorem decode_addIVx : decodeWord 0b1111_1111_0001_1110 = .ok (.addIVx 15) := by decide
theorem decode_ldFVx : decodeWord 0b1111_0011_0010_1001 = .ok (.ldFVx 3) := by decide
theorem decode_ldBVx : decodeWord 0b1111_1001_0011_0011 = .ok (.ldBVx 9) := by decide
theorem decode_ldMemVx : decodeWord 0b1111_0010_0101_0101 = .ok (.ldMemVx 2) := by decide
theorem decode_ldVxMem : decodeWord 0b1111_0010_0110_0101 = .ok (.ldVxMem 2) := by decide

/-- The bytes of a word are in memory order, high byte first (R52). -/
theorem decode_bytes_big_endian : decodeBytes [0x12, 0x34] = .ok (.jp 0x234, []) := by decide

/-- One byte is no instruction word (R60). -/
theorem decode_one_byte : decodeBytes [0x12] = .error .truncated := by decide

/-- The fields of `0xABCD` (E1). -/
theorem fields_of_abcd : fieldG 0xABCD = 0xA ∧ fieldNNN 0xABCD = 0xBCD ∧ fieldNN 0xABCD = 0xCD ∧
    fieldN 0xABCD = 0xD ∧ fieldX 0xABCD = 0xB ∧ fieldY 0xABCD = 0xC := by decide

/-- The host's numbering of a row's bits: bit 0 is the least significant of the word. -/
theorem table_word_drw : decodeTableWord 16 0xD12F = some (.drw 1 2 15) := by decide

/-! ### What is refused as not well formed -/

/-- Words of every group that match no row (the list of section 2.1 of the vectors). -/
theorem ill_formed_words :
    [0x0000, 0x0123, 0x00E1, 0x01E0, 0x00FE, 0x5001, 0x500F, 0x8008, 0x800F, 0x9001, 0xE000, 0xE19F,
      0xE0A0, 0xF000, 0xF0FF, 0xF175, 0xF00B, 0xFFFF].all
        (fun w => !wordWellFormed (BitVec.ofNat 16 w) &&
          (decodeTableWord 16 w == none)) = true := by decide

/-- Their valid neighbours (section 2.1 of the vectors). -/
theorem well_formed_neighbours :
    [0x00E0, 0x00EE, 0x5000, 0x5FF0, 0x8007, 0x800E, 0x8FFE, 0x9FF0, 0xEF9E, 0xEFA1, 0xFF65].all
        (fun w => wordWellFormed (BitVec.ofNat 16 w)) = true := by decide

/-- An image of `MAX_ROM` bytes fits, one byte more is refused (E5). -/
theorem image_sizes (b : Byte) :
    imageWellFormed (List.replicate 3584 b) = true ∧ imageWellFormed (List.replicate 3585 b) = false := by
  simp only [imageWellFormed, List.length_replicate]
  decide

/-- A memory out of order, one that repeats an address, one that lists what is there at reset, and one that
lists an address past the end are not canonical (log 32). -/
theorem ill_formed_memories :
    Memory.wf [(0x301, 1), (0x300, 1)] = false ∧ Memory.wf [(600, 1), (600, 2)] = false ∧
      Memory.wf [(0x300, 0)] = false ∧ Memory.wf [(4096, 1)] = false := by decide

/-- Writing what an address holds at reset removes its entry (log 32). -/
theorem write_back_reset_byte : (Memory.write [(0x300, 7)] 0x300 0) = [] := by decide

/-- Reset memory is canonical. -/
theorem reset_memory_wf : Memory.wf State.reset.mem = true := by decide

/-! ### Fetch and the driver -/

theorem test_v1_last_word : after (step (word 0x6000 (atPc 0xFFE z))) (fun t => t.pc == 0x1000) = true := by
  decide
theorem test_v2_fetch_past_end : stops (step (atPc 0xFFF z)) .memoryAddressNotFound = true := by decide
theorem test_v6_odd_pc : after (step (bytes 0x201 [0x6A, 0x7F] (atPc 0x201 z)))
    (fun t => getReg t 10 == 0x7F && t.pc == 0x203) = true := by decide
theorem test_v137_no_tick_on_error : (hostCycle (timers 5 5 (word 0x0000 z))).2 = timers 5 5 (word 0x0000 z) := by
  rfl
theorem test_v156_waiting_holds_pc : after (step (waiting (word 0x6001 z)))
    (fun t => getReg t 0 == 1 && t.pc == 0x200 && t.wait) = true := by decide
theorem test_v157_waiting_skip : after (step (waiting (word 0x3000 z))) (fun t => t.pc == 0x202) = true := by
  decide
theorem test_v158_waiting_jump : after (step (waiting (word 0x1234 z)))
    (fun t => t.pc == 0x234 && t.wait) = true := by decide

/-! ### Control transfer -/

theorem test_v11_jump_to_itself_ticks : after (step (timers 1 255 (word 0x1200 z)))
    (fun t => t.pc == 0x200 && t.dt == 0 && t.st == 254) = true := by decide
theorem test_v14_call_full : after (step (stacked 16 0x111 (word 0x2ABC z)))
    (fun t => t.stack.get 15 == 0x200 && t.stack.get 14 == 0x111 &&
      t.sp == 16 && t.pc == 0xABC) = true ∧
    (hostCycle (stacked 16 0x111 (word 0x2ABC z))).1 = .status .stackOverflow := by decide
theorem test_v16_call : after (step (word 0x2300 (atPc 0xFFE z)))
    (fun t => t.stack.get 0 == 0xFFE && t.sp == 1 && t.pc == 0x300) = true := by decide
theorem test_v17_return_empty : stops (step (word 0x00EE z)) .noCall = true := by decide
theorem test_v18_return : after (step (stacked 16 0xFFF (word 0x00EE z)))
    (fun t => t.sp == 15 && t.pc == 0xFFF) = true := by decide
theorem test_v20_jump_offset : after (step (regs [(0, 0xFF)] (word 0xBFFF z)))
    (fun t => t.pc == 0x10FE && getReg t 15 == 0) = true := by decide
theorem test_v25_skip_equal_imm : after (step (regs [(15, 1)] (word 0x3F01 z))) (fun t => t.pc == 0x204) = true := by
  decide
theorem test_v27_skip_not_equal_imm : after (step (word 0x40FF z)) (fun t => t.pc == 0x204) = true := by decide
theorem test_v29_skip_equal_reg : after (step (regs [(10, 9)] (word 0x5AB0 z))) (fun t => t.pc == 0x202) = true := by
  decide
theorem test_v31_skip_not_equal_reg : after (step (regs [(10, 9)] (word 0x9AB0 z)))
    (fun t => t.pc == 0x204) = true := by decide

/-! ### Registers -/

theorem test_v40_ldImm : after (step (word 0x6F7F z)) (fun t => getReg t 15 == 0x7F && t.pc == 0x202) = true := by
  decide
theorem test_v41_addImm_wraps : after (step (regs [(15, 0xFF)] (word 0x7F01 z)))
    (fun t => getReg t 15 == 0) = true := by decide
theorem test_v43_addImm_no_flag : after (step (word 0x71FF z))
    (fun t => getReg t 1 == 0xFF && getReg t 15 == 0) = true := by decide
theorem test_v44_ldReg : after (step (regs [(0, 0x42)] (word 0x8F00 z))) (fun t => getReg t 15 == 0x42) = true := by
  decide
theorem test_v45_or : after (step (regs [(0, 0x55), (1, 0xAA), (15, 1)] (word 0x8011 z)))
    (fun t => getReg t 0 == 0xFF && getReg t 15 == 1) = true := by decide
theorem test_v46_and : after (step (regs [(0, 0x55), (1, 0xAA)] (word 0x8012 z)))
    (fun t => getReg t 0 == 0) = true := by decide
theorem test_v47_xor : after (step (regs [(1, 0x5A)] (word 0x8113 z))) (fun t => getReg t 1 == 0) = true := by
  decide
theorem test_v48_add_carry : after (step (regs [(0, 0xFF), (1, 1)] (word 0x8014 z)))
    (fun t => getReg t 0 == 0 && getReg t 15 == 1) = true := by decide
theorem test_v51_add_into_flag : after (step (regs [(15, 0xF0), (1, 0x20)] (word 0x8F14 z)))
    (fun t => getReg t 15 == 1) = true := by decide
theorem test_v55_sub_equal : after (step (regs [(0, 5), (1, 5)] (word 0x8015 z)))
    (fun t => getReg t 0 == 0 && getReg t 15 == 1) = true := by decide
theorem test_v56_sub_borrow : after (step (regs [(1, 1)] (word 0x8015 z)))
    (fun t => getReg t 0 == 0xFF && getReg t 15 == 0) = true := by decide
theorem test_v63_subn_borrow : after (step (regs [(0, 1)] (word 0x8017 z)))
    (fun t => getReg t 0 == 0xFF && getReg t 15 == 0) = true := by decide
theorem test_v64_subn : after (step (regs [(1, 0xFF)] (word 0x8017 z)))
    (fun t => getReg t 0 == 0xFF && getReg t 15 == 1) = true := by decide
theorem test_v66_shr : after (step (regs [(0, 0xFF)] (word 0x8016 z)))
    (fun t => getReg t 0 == 0x7F && getReg t 15 == 1) = true := by decide
theorem test_v67_shr_ignores_y : after (step (regs [(1, 0xFF)] (word 0x8016 z)))
    (fun t => getReg t 0 == 0 && getReg t 15 == 0 && getReg t 1 == 0xFF) = true := by decide
theorem test_v72_shl : after (step (regs [(0, 0x7F), (1, 0x80)] (word 0x801E z)))
    (fun t => getReg t 0 == 0xFE && getReg t 15 == 0) = true := by decide
theorem test_v74_shl_into_flag : after (step (regs [(15, 0x80)] (word 0x8F0E z)))
    (fun t => getReg t 15 == 1) = true := by decide

/-- Section 2.3 of the vectors, V78: masked by 0 the result is 0, whatever was drawn. -/
theorem test_v78_rnd_masked : ∃ t, exec (.rnd 0 0) (regs [(0, 0x33)] z) = .next t ∧ getReg t 0 = 0 :=
  ⟨_, rfl, by simp⟩

/-! ### Index and memory -/

theorem test_v90_ldI : after (step (word 0xAFFF z)) (fun t => t.i == 0xFFF) = true := by decide
theorem test_v94_addI_wraps : after (step (regs [(0, 0xFF)] (index 0xFFF (word 0xF01E z))))
    (fun t => t.i == 0x0FE && getReg t 15 == 0) = true := by decide
theorem test_v121_glyph : after (step (regs [(0, 15)] (index 0x123 (word 0xF029 z))))
    (fun t => t.i == 0x04B) = true := by decide
theorem test_v122_glyph_above_15 : stops (step (regs [(0, 16)] (word 0xF029 z))) .invalidArguments = true := by
  decide
theorem test_v96_bcd_at_end : after (step (regs [(0, 255)] (index 0xFFD (word 0xF033 z))))
    (fun t => t.mem.readBytes 0xFFD 3 == [2, 5, 5] && t.i == 0xFFD) = true := by decide
theorem test_v97_bcd_past_end : stops (step (regs [(0, 255)] (index 0xFFE (word 0xF033 z))))
    .memoryAddressNotFound = true := by decide
theorem test_v105_store_all : after (step (index 0xFF0
      (regs ((List.finRange 16).map fun k => (k, BitVec.ofNat 8 (k.val + 1))) (word 0xFF55 z))))
    (fun t => t.mem.readBytes 0xFF0 16 == (List.range 16).map (fun k => BitVec.ofNat 8 (k + 1)) &&
      t.i == 0xFF0) = true := by decide
theorem test_v104_store_past_end : stops (step (regs [(0, 0xAB), (1, 0xCD)] (index 0xFFF (word 0xF155 z))))
    .memoryAddressNotFound = true := by decide
/-- V109, with the premise that the vector names: the default `GLYPHS`. -/
theorem test_v109_load_glyphs (h : GlyphsAreDefault) :
    ∃ t, exec (.ldVxMem 15) z = .next t ∧ ∀ k : RegId, getReg t k = defaultGlyphs.getD k.val 0 := by
  refine ⟨_, rfl, fun k => ?_⟩
  have hk : k.val < 80 := by omega
  rw [← h k.val hk, getReg_setRegs, get_loadRegs, if_pos (show k ≤ 15 from Fin.le_last k), effAddr]
  simp [State.reset, Memory.read, resetByte, hk]

/-- The default table: V109's sixteen bytes, 80 in all, the last one 0x80 (E5). -/
theorem test_default_glyphs : defaultGlyphs.take 16 = [0xF0, 0x90, 0x90, 0x90, 0xF0, 0x20, 0x60, 0x20, 0x20,
    0x70, 0xF0, 0x10, 0xF0, 0x80, 0xF0, 0xF0] ∧ defaultGlyphs.length = 80 ∧ defaultGlyphs.getD 79 0 = 0x80 := by
  decide
theorem test_v110_load_own_encoding : after (step (index 0x200 (word 0xF265 z)))
    (fun t => getReg t 0 == 0xF2 && getReg t 1 == 0x65 && getReg t 2 == 0) = true := by decide

/-! ### Drawing -/

theorem test_v170_cls : after (step (regs [(15, 1)] (lit 255 0x01 (word 0x00E0 z))))
    (fun t => t.fb.get 255 == 0 && t.fb.get 0 == 0 && getReg t 15 == 1) = true := by decide +kernel
theorem test_v173_draw_wraps : after (step (index 0x300 (bytes 0x300 [0xFF] (regs [(0, 60), (1, 31)] (word 0xD011 z)))))
    (fun t => t.fb.get 255 == 0x0F && t.fb.get 248 == 0xF0 && getReg t 15 == 0) = true := by decide +kernel
theorem test_v188_draw_collides : after (step (index 0x300 (bytes 0x300 [0x80] (regs [(15, 3)]
      (lit 24 0x10 (word 0xDFF1 z))))))
    (fun t => t.fb.get 24 == 0 && getReg t 15 == 1) = true := by decide +kernel

/-! ### Keys -/

theorem test_v141_skp_consumes : after (step (keys [6, 5] (regs [(0, 5)] (word 0xE09E z))))
    (fun t => t.pc == 0x202 && t.kq == [5]) = true := by decide
theorem test_v145_skp_key_0 : after (step (keys [0] (word 0xE09E z)))
    (fun t => t.pc == 0x204 && t.kq == []) = true := by decide
theorem test_v148_sknp_empty : after (step (regs [(0, 5)] (word 0xE0A1 z))) (fun t => t.pc == 0x204) = true := by
  decide
theorem test_v149_sknp_match : after (step (keys [0, 0] (word 0xE0A1 z)))
    (fun t => t.pc == 0x202 && t.kq == [0]) = true := by decide
theorem test_v150_wait_empty : after (step (regs [(0, 0x77)] (word 0xF00A z)))
    (fun t => t.pc == 0x200 && t.wait && getReg t 0 == 0x77) = true := by decide
theorem test_v154_wait_key : after (step (waiting (keys [3] (timers 3 0 (word 0xF00A z)))))
    (fun t => t.pc == 0x202 && getReg t 0 == 3 && !t.wait && t.kq == [] && t.dt == 2) = true := by decide

/-! ### Timers -/

theorem test_v131_read_before_tick : after (step (timers 1 0 (word 0xF007 z)))
    (fun t => getReg t 0 == 1 && t.dt == 0) = true := by decide
theorem test_v135_write_dt : after (step (regs [(0, 255)] (word 0xF015 z))) (fun t => t.dt == 254) = true := by
  decide
theorem test_v136_write_st : after (step (regs [(0, 255)] (timers 7 0 (word 0xF018 z))))
    (fun t => t.st == 254 && t.dt == 6 && hostSoundActive t) = true := by decide

/-! ### The host -/

theorem test_v201_nothing_loaded : stops (step z) .invalidOpcode = true := by decide
theorem test_v203_odd_length : ((hostLoadProgram [0x60, 0x01, 0x70] z).2.mem.readBytes 0x200 4 ==
    [0x60, 0x01, 0x70, 0]) = true := by decide
theorem test_codes : [Status.ok, .invalidOpcode, .memoryAddressNotFound, .registerNotFound, .invalidArguments,
    .stackOverflow, .noCall, .romTooBig].map Status.code = [0, 1, 2, 3, 4, 5, 6, 7] := by decide

/-! ### Witnesses: for each statement with hypotheses, a state and operands that meet them -/

/-- A decoded instruction at `PC`, from its parts. -/
theorem decoded {s : State} {i : Instr} (h : s.pc ≤ 4094)
    (hd : decodeBytes [s.mem.read s.pc, s.mem.read (s.pc + 1)] = .ok (i, [])) : decodedAt s i := ⟨h, hd⟩

theorem witness_EncodeOfDecodedWord : decodeWord 0x8AB6 = .ok (.shr 10 11) := by decide

/-- One word that decodes, one that does not. -/
theorem witness_OneRowSelectsEachDecodedWord :
    decodeWord 0xF065 = .ok (.ldVxMem 0) ∧ wordWellFormed 0xF066 = false := by decide

/-- The boundary words of the six clauses, and that none falls under another. -/
theorem witness_InvalidWordsByGroup :
    [0x00DF, 0x5001, 0x8008, 0x9001, 0xE09D, 0xF066].all
      (fun w => decodeTableWord 16 w == none) = true := by decide

/-- A completing and a raising instruction at the last address a fetch can read. -/
theorem witness_StepRunsTheDecodedInstruction :
    (decodedAt (word 0x6000 (atPc 4094 z)) (.ldImm 0 0) ∧
      ∃ u, exec (.ldImm 0 0) (word 0x6000 (atPc 4094 z)) = .next u) ∧
    (decodedAt (word 0x00EE z) .ret ∧ exec .ret (word 0x00EE z) = .fault .noCall) :=
  ⟨⟨decoded (by decide) (by decide), next_of_after (by decide)⟩,
    decoded (by decide) (by decide), fault_of_stops (by decide)⟩

theorem witness_FetchReadsTheWordAtPc :
    (atPc 4094 z).pc + 1 < 4096 ∧ 4096 ≤ (atPc 4095 z).pc + 1 := by decide

theorem witness_InvalidOpcodeExactlyOnUnmatchedWords : step (word 0x8008 z) = .fault .invalidOpcode :=
  fault_of_stops (by decide)

/-- Each of the five clauses at the first address that fails, and the last that does not. -/
theorem witness_AddressErrorExactlyPastMemory :
    (4095 ≤ (atPc 4095 z).pc ∧ ¬ 4095 ≤ (atPc 4094 z).pc) ∧
    (decodedAt (index 0xFFF (word 0xD012 z)) (.drw 0 1 2) ∧
      4096 ≤ (index 0xFFF (word 0xD012 z)).i.toNat + (2 : Nibble).toNat - 1 ∧
      ∃ t, step (index 0xFFF (word 0xD011 z)) = .next t) ∧
    (decodedAt (index 0xFFE (word 0xF033 z)) (.ldBVx 0) ∧
      4096 ≤ (index 0xFFE (word 0xF033 z)).i.toNat + 2 ∧
      ∃ t, step (index 0xFFD (word 0xF033 z)) = .next t) ∧
    (decodedAt (index 0xFF1 (word 0xFF55 z)) (.ldMemVx 15) ∧
      4096 ≤ (index 0xFF1 (word 0xFF55 z)).i.toNat + 15 ∧
      ∃ t, step (index 0xFF0 (word 0xFF55 z)) = .next t) ∧
    (decodedAt (index 0xFFF (word 0xF165 z)) (.ldVxMem 1) ∧
      4096 ≤ (index 0xFFF (word 0xF165 z)).i.toNat + 1 ∧
      ∃ t, step (index 0xFFF (word 0xF065 z)) = .next t) :=
  ⟨by decide, ⟨decoded (by decide) (by decide), by decide, next_of_after (by decide)⟩,
    ⟨decoded (by decide) (by decide), by decide, next_of_after (by decide)⟩,
    ⟨decoded (by decide) (by decide), by decide, next_of_after (by decide)⟩,
    decoded (by decide) (by decide), by decide, next_of_after (by decide)⟩

/-- 16 raises, 15 does not. -/
theorem witness_InvalidArgumentsExactlyOnGlyphAbove15 :
    decodedAt (regs [(0, 16)] (word 0xF029 z)) (.ldFVx 0) ∧
      step (regs [(0, 16)] (word 0xF029 z)) = .fault .invalidArguments ∧
      ∃ t, step (regs [(0, 15)] (word 0xF029 z)) = .next t :=
  ⟨decoded (by decide) (by decide), fault_of_stops (by decide), next_of_after (by decide)⟩

theorem witness_NoCallExactlyOnEmptyReturn :
    decodedAt (word 0x00EE z) .ret ∧ (word 0x00EE z).sp = 0 ∧ step (word 0x00EE z) = .fault .noCall ∧
      ∃ t, step (stacked 1 0x200 (word 0x00EE z)) = .next t :=
  ⟨decoded (by decide) (by decide), rfl, fault_of_stops (by decide), next_of_after (by decide)⟩

/-- A CALL with a full stack, and one with one free entry. -/
theorem witness_StackOverflowExactlyOnFullCall :
    (decodedAt (stacked 16 0 (word 0x2300 z)) (.call 0x300) ∧ (stacked 16 0 (word 0x2300 z)).sp = 16 ∧
      ∃ t, step (stacked 16 0 (word 0x2300 z)) = .next t) ∧
    (stacked 15 0 (word 0x2300 z)).sp ≠ 16 ∧ ∃ t, step (stacked 15 0 (word 0x2300 z)) = .next t :=
  ⟨⟨decoded (by decide) (by decide), rfl, next_of_after (by decide)⟩, by decide, next_of_after (by decide)⟩

/-- Each status of the statement is returned by some cycle, and an image one byte too long is refused. -/
theorem witness_ErrorsLeaveTheState :
    (hostCycle z).1 = .status .invalidOpcode ∧ (hostCycle (atPc 4095 z)).1 = .status .memoryAddressNotFound ∧
    (hostCycle (regs [(0, 16)] (word 0xF029 z))).1 = .status .invalidArguments ∧
    (hostCycle (word 0x00EE z)).1 = .status .noCall ∧
    (hostCycle (stacked 16 0 (word 0x2300 z))).1 = .status .stackOverflow ∧
    (hostLoadProgram (List.replicate 3585 0xAA) z).1 = .romTooBig := by
  refine ⟨by decide, by decide, by decide, by decide, by decide, ?_⟩
  rw [hostLoadProgram, (image_sizes 0xAA).2]
  rfl

/-- The three shapes of the match, a timer at 0 among them. -/
theorem witness_TimersTickInEveryCompletedCycle :
    (decodedAt (regs [(0, 255)] (word 0xF015 z)) (.ldDtVx 0) ∧
      ∃ t, step (regs [(0, 255)] (word 0xF015 z)) = .next t) ∧
    (decodedAt (regs [(0, 1)] (word 0xF018 z)) (.ldStVx 0) ∧
      ∃ t, step (regs [(0, 1)] (word 0xF018 z)) = .next t) ∧
    (decodedAt (timers 0 1 (word 0x1200 z)) (.jp 0x200) ∧
      ∃ t, step (timers 0 1 (word 0x1200 z)) = .next t) :=
  ⟨⟨decoded (by decide) (by decide), next_of_after (by decide)⟩,
    ⟨decoded (by decide) (by decide), next_of_after (by decide)⟩,
    decoded (by decide) (by decide), next_of_after (by decide)⟩

/-- A plain instruction and a skip, each with `WAIT` 0 and 1. -/
theorem witness_PcAdvancesByTwoUnlessWaiting :
    (decodedAt (word 0x6000 (atPc 4094 z)) (.ldImm 0 0) ∧
      (∃ t, step (word 0x6000 (atPc 4094 z)) = .next t) ∧ ∃ t, step (waiting (word 0x6000 z)) = .next t) ∧
    (decodedAt (word 0x3000 (atPc 4094 z)) (.seImm 0 0) ∧
      (∃ t, step (word 0x3000 (atPc 4094 z)) = .next t) ∧
      decodedAt (waiting (word 0x3000 z)) (.seImm 0 0) ∧ (waiting (word 0x3000 z)).wait = true ∧
      ∃ t, step (waiting (word 0x3000 z)) = .next t) ∧
    isJumpCallOrReturn (.seImm 0 0) = false ∧ isSkip (.seImm 0 0) = true ∧
    isJumpCallOrReturn (.ldImm 0 0) = false ∧ isSkip (.ldImm 0 0) = false ∧
    ∀ x, Instr.seImm 0 0 ≠ .ldVxK x ∧ Instr.ldImm 0 0 ≠ .ldVxK x :=
  ⟨⟨decoded (by decide) (by decide), next_of_after (by decide), next_of_after (by decide)⟩,
    ⟨decoded (by decide) (by decide), next_of_after (by decide), decoded (by decide) (by decide), rfl,
      next_of_after (by decide)⟩, rfl, rfl, rfl, rfl, by decide⟩

/-- Row by row: a key pending, none pending, another instruction while waiting, a push with room. -/
theorem witness_WaitFlagStateMachine :
    (decodedAt (waiting (keys [0] (word 0xF30A z))) (.ldVxK 3) ∧ (waiting (keys [0] (word 0xF30A z))).kq = [0] ∧
      ∃ t, step (waiting (keys [0] (word 0xF30A z))) = .next t) ∧
    (decodedAt (word 0xF30A z) (.ldVxK 3) ∧ (word 0xF30A z).kq = [] ∧ ∃ t, step (word 0xF30A z) = .next t) ∧
    (decodedAt (waiting (word 0x6001 z)) (.ldImm 0 1) ∧ (∀ x, Instr.ldImm 0 1 ≠ .ldVxK x) ∧
      ∃ t, step (waiting (word 0x6001 z)) = .next t) ∧
    z.kq.length < Config.keyqCap :=
  ⟨⟨decoded (by decide) (by decide), rfl, next_of_after (by decide)⟩,
    ⟨decoded (by decide) (by decide), rfl, next_of_after (by decide)⟩,
    ⟨decoded (by decide) (by decide), by decide, next_of_after (by decide)⟩, Nat.succ_pos _⟩

/-- A jump to itself, also with `WAIT = 1` and at the last address a word can start. -/
theorem witness_SettledCyclesOnlyTick :
    settled (timers 0 255 (word 0x1200 z)) = true ∧ settled (waiting (word 0x1200 z)) = true ∧
      settled (word 0x1FFE (atPc 0xFFE z)) = true := by decide

theorem witness_OnlyRndReadsTheEnvironment :
    (∀ x nn, Instr.cls ≠ .rnd x nn) ∧ decodedAt (word 0x00E0 z) .cls :=
  ⟨by simp, decoded (by decide) (by decide)⟩

/-- A state with a stored program and a pushed entry that meets the invariant and completes a cycle. -/
theorem witness_EveryCycleKeepsInv :
    Inv (stacked 1 0xFFE (word 0x2300 (atPc 0xFFE z))) ∧
      ∃ t, step (stacked 1 0xFFE (word 0x2300 (atPc 0xFFE z))) = .next t :=
  ⟨⟨by decide, by decide, by decide, Nat.zero_le _⟩, next_of_after (by decide)⟩

/-- A state reached by loading a program, from which a cycle completes. -/
theorem witness_ReachableStatesAreInRange :
    Reachable (hostLoadProgram [0x12, 0x00] z).2 ∧
      ∃ t, step (hostLoadProgram [0x12, 0x00] z).2 = .next t :=
  ⟨.load _ .reset, next_of_after (by decide)⟩

/-- One completed execute step for each kind of instruction the clauses tell apart. -/
theorem witness_EachPieceChangesOnlyByItsInstructions :
    (∃ t, exec (.ldImm 0 1) z = .next t) ∧ (∃ t, exec (.ldBVx 0) (index 0xFFD z) = .next t) ∧
      (∃ t, exec (.drw 0 1 1) (index 0xFFF z) = .next t) ∧ (∃ t, exec (.ldFVx 0) z = .next t) ∧
      (∃ t, exec (.call 0) (stacked 16 0 z) = .next t) ∧ (∃ t, exec .ret (stacked 1 0 z) = .next t) ∧
      (∃ t, exec (.ldVxK 0) z = .next t) ∧ (15 : RegId) ∉ destinations (.ldVxMem 14) :=
  ⟨next_of_after (by decide), next_of_after (by decide), next_of_after (by decide), next_of_after (by decide),
    next_of_after (by decide), next_of_after (by decide), next_of_after (by decide), by decide⟩

/-- A flag writer, a writer of another register, and an instruction that writes none. -/
theorem witness_OnlyFlagWritersWriteVf :
    (∃ t, exec (.addReg 0 1) (regs [(0, 255), (1, 1)] z) = .next t) ∧
      (∃ t, exec (.addImm 14 255) z = .next t) ∧ (14 : RegId) ≠ 15 ∧ ∃ t, exec .cls z = .next t :=
  ⟨next_of_after (by decide), next_of_after (by decide), by decide, next_of_after (by decide)⟩

theorem witness_JumpSetsPcWithoutAdvance :
    decodedAt (word 0x1FFF z) (.jp 0xFFF) ∧ (0xFFF : Addr) = 4095 :=
  ⟨decoded (by decide) (by decide), by decide⟩

theorem witness_JumpWithOffsetIsNotReduced :
    decodedAt (regs [(0, 0xFF)] (word 0xBFFF z)) (.jpV0 0xFFF) := decoded (by decide) (by decide)

/-- One free entry left, and none. -/
theorem witness_CallPushesItsOwnAddress :
    (stacked 15 0 (word 0x2ABC z)).sp ≠ 16 ∧ (stacked 16 0 (word 0x2ABC z)).sp = 16 ∧
      decodedAt (stacked 15 0 (word 0x2ABC z)) (.call 0xABC) :=
  ⟨by decide, rfl, decoded (by decide) (by decide)⟩

/-- An empty stack, one entry, and a full stack. -/
theorem witness_ReturnPopsIntoPc :
    z.sp = 0 ∧ (stacked 1 0x200 (word 0x00EE z)).sp.val = (0 : Fin 16).val + 1 ∧
      (stacked 16 0x200 (word 0x00EE z)).sp.val = (15 : Fin 16).val + 1 ∧
      decodedAt (stacked 16 0x200 (word 0x00EE z)) .ret :=
  ⟨rfl, rfl, rfl, decoded (by decide) (by decide)⟩

/-- Program P4 of the vectors, and a RET at the last address a word can start. -/
theorem witness_ReturnLandsOnItsCall :
    let s := bytes 0xFFE [0x00, 0xEE] (word 0x2FFE z)
    decodedAt s (.call 0xFFE) ∧ s.sp ≠ 16 ∧ (0xFFE : Addr).toNat ≤ 4094 ∧
      decodeBytes [s.mem.read (0xFFE : Addr).toNat, s.mem.read ((0xFFE : Addr).toNat + 1)] = .ok (.ret, []) :=
  ⟨decoded (by decide) (by decide), by decide, by decide, by decide⟩

/-- Sixteen addresses on an empty stack, one on a stack with one free entry, and none on a full one. -/
theorem witness_PopAfterPushRestores :
    (z.sp.val + (List.range 16).length ≤ 16 ∧ z.sp = 0) ∧ (stacked 15 7 z).sp.val + [7].length ≤ 16 ∧
      (stacked 16 7 z).sp.val + ([] : List Nat).length ≤ 16 ∧ (stacked 15 7 z).sp ≠ 16 := by decide

/-- E4: sixteen nested calls, and their addresses back in reverse order. -/
theorem test_e4_stack : (popAll 16 (pushAll z (List.range 16))).map Prod.fst =
    some (List.range 16).reverse := by decide

/-- A destination that is not VF, for the three statements about results and flags. -/
theorem witness_AddWrapsThenWritesCarry : (14 : RegId) ≠ 15 := by decide

theorem witness_SubtractionsWrapThenWriteNoBorrow : (0 : RegId) ≠ 15 := by decide

theorem witness_ShiftsWriteTheBitShiftedOut : (14 : RegId) ≠ 15 := by decide

/-- The last value with a glyph, and the first without. -/
theorem witness_GlyphLookupIsFiveTimes :
    (getReg (regs [(0, 15)] z) 0).toNat ≤ 15 ∧ 15 < (getReg (regs [(0, 16)] z) 0).toNat := by decide

theorem witness_BcdStoresThreeDigits :
    ((index 0xFFD z).mem.wf = true ∧ effAddr (index 0xFFD z) 2 < 4096) ∧
      4096 ≤ effAddr (index 0xFFE z) 2 := by decide

theorem witness_BlockStoreCopiesRegisters :
    ((index 0xFF0 z).mem.wf = true ∧ effAddr (index 0xFF0 z) (15 : RegId).val < 4096) ∧
      4096 ≤ effAddr (index 0xFF1 z) (15 : RegId).val := by decide

theorem witness_BlockLoadCopiesMemory :
    effAddr (index 0xFFF z) (0 : RegId).val < 4096 ∧ 4096 ≤ effAddr (index 0xFFF z) (1 : RegId).val := by
  decide

theorem witness_BlockLoadAfterBlockStore :
    (index 0xFF0 (regs [(15, 9)] z)).mem.wf = true ∧
      ∃ t, exec (.ldMemVx 15) (index 0xFF0 (regs [(15, 9)] z)) = .next t :=
  ⟨by decide, next_of_after (by decide)⟩

/-- A block store over the word right after it. -/
theorem witness_NextFetchSeesTheStore :
    let s := index 0x202 (regs [(0, 0x12), (1, 0x34)] (word 0xF155 z))
    s.mem.wf = true ∧ decodedAt s (.ldMemVx 1) ∧
      after (step s) (fun t => t.pc == effAddr s (0 : RegId).val && t.pc + 1 == effAddr s (1 : RegId).val &&
        decide (t.pc ≤ 4094)) = true :=
  ⟨by decide, decoded (by decide) (by decide), by decide⟩

/-- A set sprite bit over a pixel, across the right edge, and a pixel it does not cover. -/
theorem witness_DrawRowInvertsUnderSetBits :
    ((0x01 : Byte).getLsbD (7 - 7) = true ∧ 6 % 64 = (63 + 7) % 64) ∧
      (0x01 : Byte).getLsbD (7 - 0) = false := by decide

/-- Reset with one sprite row `0xF0` at 0x300 and `I` there. -/
def sprite : State := index 0x300 (bytes 0x300 [0xF0] z)

/-- No row at all, a last row in the last byte of memory, and one past it. -/
theorem witness_DrawInvertsUnderTheSprite :
    ((0 : Nibble) = 0 ∧ effAddr (index 0xFFF z) ((1 : Nibble).toNat - 1) < 4096) ∧
    ((2 : Nibble) ≠ 0 ∧ 4096 ≤ effAddr (index 0xFFF z) ((2 : Nibble).toNat - 1)) ∧
    ¬ spriteMeets sprite 0 0 1 true ∧ spriteMeets (lit 0 0x80 sprite) 0 0 1 true ∧
    spriteCovers sprite 0 0 1 64 32 ∧ ¬ spriteCovers sprite 0 0 1 4 0 := by
  refine ⟨by decide, by decide, ?_, ⟨0, by decide, 0, by decide, by decide, by decide⟩,
    ⟨0, by decide, 0, by decide, by decide, by decide, by decide⟩, ?_⟩
  · rintro ⟨row, _, k, _, _, h⟩
    simp [sprite, index, bytes, z, State.reset, getPixel, Vector.get_eq_getElem] at h
  · rintro ⟨row, hrow, k, hk, hbit, hx, _⟩
    obtain rfl : row = 0 := by omega
    obtain rfl : k = 4 := by omega
    exact absurd hbit (by decide)

theorem witness_DrawingTwiceRestores :
    ∃ t, exec (.drw 15 15 15) (index 0xFF1 (regs [(15, 63)] z)) = .next t := next_of_after (by decide)

/-- No key, the key looked for, and another key. -/
theorem witness_SkipIfKeyConsumesTheOldest :
    z.kq = [] ∧ (keys [0, 5] z).kq = 0 :: [5] ∧ (0 : Key).toNat = (getReg (keys [0, 5] z) 0).toNat ∧
      (15 : Key).toNat ≠ (getReg (keys [15] z) 0).toNat := by decide

theorem witness_SkipIfNotKeyConsumesTheOldest :
    z.kq = [] ∧ (keys [0, 5] z).kq = 0 :: [5] ∧ (0 : Key).toNat = (getReg (keys [0, 5] z) 0).toNat ∧
      (5 : Key).toNat ≠ (getReg (regs [(0, 0x15)] z) 0).toNat := by decide

theorem witness_WaitForKeyStoresOrWaits :
    ((word 0xFF0A z).kq = [] ∧ decodedAt (word 0xFF0A z) (.ldVxK 15)) ∧
      (keys [15, 1] (word 0xFF0A z)).kq = 15 :: [1] ∧ decodedAt (keys [15, 1] (word 0xFF0A z)) (.ldVxK 15) :=
  ⟨⟨rfl, decoded (by decide) (by decide)⟩, rfl, decoded (by decide) (by decide)⟩

theorem witness_PopAndPeekAnswerTheOldest : z.kq = [] ∧ (keys [0] z).kq = 0 :: [] := ⟨rfl, rfl⟩

/-- Room for one key, whatever the capacity, and a full queue. -/
theorem witness_PushesAppendInOrder :
    z.kq.length + [(3 : Key)].length ≤ Config.keyqCap ∧
      Config.keyqCap ≤ (keys (List.replicate Config.keyqCap 0) z).kq.length := by
  refine ⟨Nat.succ_le_succ (Nat.zero_le _), ?_⟩
  simp [keys]

theorem witness_TimerInstructionsReadAndWrite :
    decodedAt (timers 1 0 (word 0xF007 z)) (.ldVxDt 0) ∧ decodedAt (regs [(0, 1)] (word 0xF015 z)) (.ldDtVx 0) ∧
      decodedAt (regs [(0, 1)] (word 0xF018 z)) (.ldStVx 0) :=
  ⟨decoded (by decide) (by decide), decoded (by decide) (by decide), decoded (by decide) (by decide)⟩

/-- The statuses of the two kinds of completed cycle, and a cycle that raises. -/
theorem witness_OneStatusAndItIsNotRead :
    (∃ t, step (word 0x6000 z) = .next t) ∧ (∃ t, step (stacked 16 0 (word 0x2300 z)) = .next t) ∧
      step z = .fault .invalidOpcode :=
  ⟨next_of_after (by decide), next_of_after (by decide), fault_of_stops (by decide)⟩

/-- Both sides of the glyph table's end. -/
theorem witness_InitGivesTheResetState : 80 ≤ 80 ∧ 79 < 80 := by decide

/-- An image that just fits, and one byte more. -/
theorem witness_LoadProgramCopiesOrRefuses :
    z.mem.wf = true ∧ (List.replicate 3584 (0xAA : Byte)).length ≤ 3584 ∧
      3584 < (List.replicate 3585 (0xAA : Byte)).length := by
  simp only [List.length_replicate]
  decide

theorem witness_BootFetchesTheFirstWord : (List.replicate 3582 (0 : Byte)).length ≤ 3582 := by
  simp only [List.length_replicate]
  decide

/-- The last pixel of the grid. -/
theorem witness_PixelQueryWrapsAndSoundFollowsSt :
    63 < 64 ∧ 31 < 32 ∧ (255 : Fin 256).val = 63 / 8 + 8 * 31 ∧ 0 < (timers 0 1 z).st.toNat := by decide

end Sys2Proof.Tests
end

