-- ==== Sys2Proof/Proofs/KeyQueue.lean ====
section
/-! The key queue's two ends of the case split, empty and non-empty, said once for the queue, for `popKey`
and for the host's pop and peek (spec/45_input.md). -/

namespace Sys2Proof.Machine

@[simp] theorem oldestKey_nil : oldestKey [] = none := rfl
@[simp] theorem oldestKey_cons (k : Key) (q : List Key) : oldestKey (k :: q) = some k := rfl
@[simp] theorem dropOldestKey_nil : dropOldestKey [] = [] := rfl
@[simp] theorem dropOldestKey_cons (k : Key) (q : List Key) : dropOldestKey (k :: q) = q := rfl

/-- R172 on an empty queue: the whole state, the queue included, is as it was. -/
theorem popKey_of_empty {s : State} (h : s.kq = []) : popKey s = (none, s) := by
  have same : { s with kq := [] } = s := by rw [← h]
  rw [popKey, h, oldestKey_nil, dropOldestKey_nil, same]

/-- R172 on a queue with a key. -/
theorem popKey_of_cons {s : State} {k : Key} {q : List Key} (h : s.kq = k :: q) :
    popKey s = (some k, { s with kq := q }) := by
  rw [popKey, h, oldestKey_cons, dropOldestKey_cons]

/-- The host's pop is the queue operation of the instructions (R235). -/
theorem hostKeyPop_eq_popKey (s : State) : hostKeyPop s = popKey s := rfl

/-- Peek answers what a pop would (R173, R234). -/
theorem hostKeyPeek_eq_popKey_fst (s : State) : hostKeyPeek s = (popKey s).1 := rfl

/-- Settles O54: peek gives pop's answer, so both follow from what a pop does on an empty and on a
non-empty queue. -/
theorem popAndPeekAnswerTheOldest : Obligations.PopAndPeekAnswerTheOldest := by
  unfold Obligations.PopAndPeekAnswerTheOldest
  intro s
  rw [hostKeyPop_eq_popKey, hostKeyPeek_eq_popKey_fst]
  constructor
  · intro empty
    have pop := popKey_of_empty empty
    exact ⟨pop, congrArg Prod.fst pop⟩
  · intro k q nonempty
    have pop := popKey_of_cons nonempty
    exact ⟨pop, congrArg Prod.fst pop⟩

end Sys2Proof.Machine
end

