-- ==== Sys2Proof/Proofs/Cycle.lean ====
section
/-! A completed cycle seen from the instruction at `PC` (spec/48_cycle_driver.md R210 to R213). -/

namespace Sys2Proof.Machine

open Sys2Proof.Claims

/-- The bytes at `PC` decode to an instruction exactly when the fetched word does (R211, R212). -/
theorem decodedAt_iff (s : State) (instr : Instr) :
    decodedAt s instr ↔ ∃ w, fetch s = some w ∧ decodeWord w = .ok instr := by
  constructor
  · rintro ⟨inMemory, decodes⟩
    refine ⟨wordOf (s.mem.read s.pc) (s.mem.read (s.pc + 1)), ?_, ?_⟩
    · rw [fetch_eq, if_pos (by omega)]
    · simp only [decodeBytes] at decodes
      split at decodes
      · next decodedWord => cases decodes; exact decodedWord
      · cases decodes
  · rintro ⟨w, fetched, decodes⟩
    refine ⟨fetch_some fetched, ?_⟩
    rw [fetch_eq] at fetched
    split at fetched
    · cases fetched
      rw [decodeBytes, decodes]
    · cases fetched

/-- A completed cycle of the instruction at `PC` is its execute step, which completed, and the end of the
cycle (R210). -/
theorem step_next_of_decodedAt {s t : State} {instr : Instr} (decoded : decodedAt s instr)
    (completed : step s = .next t) : ∃ u, exec instr s = .next u ∧ t = endCycle instr u := by
  obtain ⟨w, fetched, decodes⟩ := (decodedAt_iff s instr).mp decoded
  obtain ⟨w', instr', u, fetched', decodes', executed, ended⟩ := step_next completed
  obtain rfl : w = w' := Option.some.inj (fetched.symm.trans fetched')
  obtain rfl : instr = instr' := Except.ok.inj (decodes.symm.trans decodes')
  exact ⟨u, executed, ended⟩

end Sys2Proof.Machine
end

