-- ==== Sys2Proof/Proofs/ExecNext.lean ====
section
/-! What an execute step that can raise or branch did when it completed, once per shape, so that a statement
about completed steps does not unfold the instruction again. -/

namespace Sys2Proof.Machine

/-- An instruction that checks and then completes did complete only if the check held (R214). -/
theorem next_of_guard {c : Prop} [Decidable c] {v u : State} {e : Fault}
    (h : (if c then .next v else raise e) = (.next u : Result)) : c ∧ u = v := by
  split at h
  · next held => cases h; exact ⟨held, rfl⟩
  · cases h

/-- A completed return found an entry on the stack and took it into `PC` (R102, R258). -/
theorem execRet_next {s u : State} (h : execRet s = .next u) :
    s.sp.val ≠ 0 ∧ u = jumpTo { s with sp := ⟨s.sp.val - 1, by omega⟩ }
      (s.stack.get ⟨s.sp.val - 1, by omega⟩ + retAdvance) := by
  by_cases empty : s.sp.val = 0
  · rw [execRet, popPc_empty s empty] at h
    cases h
  · rw [execRet, popPc_some s empty] at h
    cases h
    exact ⟨empty, rfl⟩

/-- A completed glyph lookup was of a value with a glyph (R200, R255). -/
theorem execLdFVx_next {x : RegId} {s u : State} (h : execLdFVx x s = .next u) :
    (getReg s x).toNat ≤ 15 ∧ u = setIndex s (BitVec.ofNat 12 (5 * (getReg s x).toNat)) := by
  unfold execLdFVx at h
  split at h
  · cases h
  · next small => cases h; exact ⟨Nat.le_of_not_lt small, rfl⟩

/-- A wait for key stored the oldest key and cleared `WAIT`, or found the queue empty and set it (R178). -/
theorem execLdVxK_next {x : RegId} {s u : State} (h : execLdVxK x s = .next u) :
    (∃ k, (popKey s).1 = some k ∧ u = setWait (setReg (popKey s).2 x (keyByte k)) false) ∨
      (popKey s).1 = none ∧ u = setWait (popKey s).2 true := by
  simp only [execLdVxK] at h
  split at h
  · next k popped => cases h; exact .inl ⟨k, popped, rfl⟩
  · next popped => cases h; exact .inr ⟨popped, rfl⟩

end Sys2Proof.Machine
end

