-- ==== Sys2Proof/Proofs/Timers.lean ====
section
/-! The timers over one cycle: execute leaves each as it was but for its own load instruction, and then both
tick (spec/46_timers.md R191 to R193). -/

namespace Sys2Proof.Machine

/-- A tick takes one off, floored at zero (R193). -/
@[simp] theorem tickTimer_toNat (t : Byte) : (tickTimer t).toNat = t.toNat - 1 := by
  unfold tickTimer
  split
  · next zero => rw [zero]; rfl
  · bv_omega

/-- `DT` as the execute step of an instruction leaves it (R191). -/
def delayAfterExec (s : State) : Instr → Byte
  | .ldDtVx x => getReg s x
  | _ => s.dt

/-- `ST` as the execute step of an instruction leaves it (R192). -/
def soundAfterExec (s : State) : Instr → Byte
  | .ldStVx x => getReg s x
  | _ => s.st

/-- Of all instructions only `FX15` writes `DT` and only `FX18` writes `ST`. -/
theorem exec_next_timers {instr : Instr} {s u : State} (h : exec instr s = .next u) :
    u.dt = delayAfterExec s instr ∧ u.st = soundAfterExec s instr := by
  cases instr with
  | ret =>
    obtain ⟨-, rfl⟩ := execRet_next h
    exact ⟨rfl, rfl⟩
  | drw _ _ _ | ldBVx _ | ldMemVx _ | ldVxMem _ =>
    obtain ⟨-, rfl⟩ := next_of_guard h
    exact ⟨rfl, rfl⟩
  | ldFVx x =>
    obtain ⟨-, rfl⟩ := execLdFVx_next h
    exact ⟨rfl, rfl⟩
  | ldVxK x =>
    obtain ⟨k, -, rfl⟩ | ⟨-, rfl⟩ := execLdVxK_next h
    · exact ⟨rfl, rfl⟩
    · exact ⟨rfl, rfl⟩
  | ldDtVx _ | ldStVx _ => cases h; exact ⟨rfl, rfl⟩
  | _ => cases h; simp [delayAfterExec, soundAfterExec]

/-- Settles O16: the tick takes one off each timer as the execute step left it. -/
theorem timersTickInEveryCompletedCycle : Obligations.TimersTickInEveryCompletedCycle := by
  unfold Obligations.TimersTickInEveryCompletedCycle
  intro s t instr decoded completed
  obtain ⟨u, executed, rfl⟩ := step_next_of_decodedAt decoded completed
  obtain ⟨delay, sound⟩ := exec_next_timers executed
  rw [endCycle_dt, endCycle_st, tickTimer_toNat, tickTimer_toNat, delay, sound]
  exact ⟨rfl, rfl⟩

end Sys2Proof.Machine
end

