-- ==== Sys2Proof/Proofs/Fetch.lean ====
section
/-! The fetch at the head of a cycle: the value of the word it reads, and the cycle that cannot fetch
(spec/48_cycle_driver.md R211). -/

namespace Sys2Proof.Machine

/-- The first byte of a word is its high one; no bit is lost, since two bytes fit in a word (R52). -/
@[simp] theorem wordOf_toNat (hi lo : Byte) : (wordOf hi lo).toNat = hi.toNat * 256 + lo.toNat := by
  have fits : hi.toNat * 256 + lo.toNat < 2 ^ 16 := by
    have := hi.isLt
    have := lo.isLt
    omega
  rw [wordOf, BitVec.toNat_ofNat, Nat.mod_eq_of_lt fits]

/-- Below the last address, fetch answers the word of the bytes at `PC` and `PC + 1` (R211). -/
theorem fetch_of_lt {s : State} (h : s.pc + 1 < 4096) :
    fetch s = some (wordOf (s.mem.read s.pc) (s.mem.read (s.pc + 1))) := by
  rw [fetch_eq, if_pos h]

/-- From the last address on, fetch answers nothing (R211). -/
theorem fetch_of_ge {s : State} (h : 4096 ≤ s.pc + 1) : fetch s = none := by
  rw [fetch_eq, if_neg (Nat.not_lt.mpr h)]

/-- A cycle that fetches nothing raises the address error (R211, R254). -/
theorem step_of_fetch_none {s : State} (h : fetch s = none) : step s = .fault .memoryAddressNotFound := by
  simp [step, h, raise]

/-- Settles O7: in memory the word of the two bytes has the big-endian value; past it nothing is fetched,
which ends the cycle in the error. -/
theorem fetchReadsTheWordAtPc : Obligations.FetchReadsTheWordAtPc := by
  unfold Obligations.FetchReadsTheWordAtPc
  intro s
  constructor
  · intro inMemory
    exact ⟨_, fetch_of_lt inMemory, wordOf_toNat _ _⟩
  · intro pastMemory
    have nothing := fetch_of_ge pastMemory
    exact ⟨nothing, step_of_fetch_none nothing⟩

end Sys2Proof.Machine
end

