-- ==== Sys2Proof/Proofs/DecodableWords.lean ====
section
/-! The decoder and the opcode map accept the same words (spec/30_encoding.md R64 to R67). A row's mask keeps
the group of a word and a field of its low bits, and the decoder branches on the same two, so both are told
group by group. -/

namespace Sys2Proof

open Laws.EncodingRow (mask_group mask_nibble mask_byte)

theorem fieldG_lt (w : Word) : fieldG w < 16 := by
  rw [fieldG_eq]
  omega

/-! ### Which words a row selects, by its mask -/

/-- A group above a field of at most twelve bits is the word whose number has this quotient and remainder
by 4096. -/
theorem group_or_field_eq_iff (w p : Word) {n : Nat} (hn : n ≤ 12) (field : BitVec n) :
    BitVec.ofNat 16 (fieldG w) <<< 12 ||| field.setWidth 16 = p ↔
      fieldG w = p.toNat / 4096 ∧ field.toNat = p.toNat % 4096 := by
  have group := fieldG_lt w
  have low : field.toNat < 2 ^ 12 := field.isLt.trans_le (Nat.pow_le_pow_right (by decide) hn)
  have number : (BitVec.ofNat 16 (fieldG w) <<< 12 ||| field.setWidth 16).toNat =
      fieldG w * 4096 + field.toNat := by
    rw [BitVec.toNat_or, BitVec.toNat_shiftLeft, BitVec.toNat_ofNat, BitVec.toNat_setWidth,
      Nat.mod_eq_of_lt (show fieldG w < 2 ^ 16 by omega),
      Nat.mod_eq_of_lt (show fieldG w <<< 12 < 2 ^ 16 by rw [Nat.shiftLeft_eq]; omega),
      Nat.mod_eq_of_lt (show field.toNat < 2 ^ 16 by omega),
      ← Nat.shiftLeft_add_eq_or_of_lt low, Nat.shiftLeft_eq]
  rw [← BitVec.toNat_inj, number]
  omega

/-- A word is its group and its field `NNN` (R61). -/
theorem eq_iff_fields (w p : Word) :
    w = p ↔ fieldG w = p.toNat / 4096 ∧ (fieldNNN w).toNat = p.toNat % 4096 := by
  rw [← BitVec.toNat_inj, fieldG_eq, fieldNNN_toNat]
  omega

theorem selects_iff_of_mask {mask p w kept : Word} (h : w &&& mask = kept) :
    OpcodeRow.selects ⟨mask, p⟩ w = true ↔ kept = p := by
  rw [OpcodeRow.selects, beq_iff_eq, h]

theorem selects_fix_iff (p w : Word) :
    OpcodeRow.selects ⟨0xFFFF, p⟩ w = true ↔
      fieldG w = p.toNat / 4096 ∧ (fieldNNN w).toNat = p.toNat % 4096 :=
  (selects_iff_of_mask BitVec.and_allOnes).trans (eq_iff_fields w p)

theorem selects_group_iff (p w : Word) :
    OpcodeRow.selects ⟨0xF000, p⟩ w = true ↔ fieldG w = p.toNat / 4096 ∧ 0 = p.toNat % 4096 :=
  (selects_iff_of_mask ((mask_group w).trans BitVec.or_zero.symm)).trans
    (group_or_field_eq_iff w p (Nat.zero_le 12) 0#0)

theorem selects_nibble_iff (p w : Word) :
    OpcodeRow.selects ⟨0xF00F, p⟩ w = true ↔
      fieldG w = p.toNat / 4096 ∧ (fieldN w).toNat = p.toNat % 4096 :=
  (selects_iff_of_mask (mask_nibble w)).trans (group_or_field_eq_iff w p (by decide) (fieldN w))

theorem selects_byte_iff (p w : Word) :
    OpcodeRow.selects ⟨0xF0FF, p⟩ w = true ↔
      fieldG w = p.toNat / 4096 ∧ (fieldNN w).toNat = p.toNat % 4096 :=
  (selects_iff_of_mask (mask_byte w)).trans (group_or_field_eq_iff w p (by decide) (fieldNN w))

/-! ### Which words decode -/

theorem decodeGroup8_ok_iff (x y : RegId) (n : Nat) :
    (∃ instr, decodeGroup8 x y n = .ok instr) ↔ n ∈ [0x0, 0x1, 0x2, 0x3, 0x4, 0x5, 0x6, 0x7, 0xE] := by
  unfold decodeGroup8
  split <;> simp_all

theorem decodeGroupE_ok_iff (x : RegId) (nn : Nat) :
    (∃ instr, decodeGroupE x nn = .ok instr) ↔ nn ∈ [0x9E, 0xA1] := by
  unfold decodeGroupE
  split <;> simp_all

theorem decodeGroupF_ok_iff (x : RegId) (nn : Nat) :
    (∃ instr, decodeGroupF x nn = .ok instr) ↔
      nn ∈ [0x07, 0x0A, 0x15, 0x18, 0x1E, 0x29, 0x33, 0x55, 0x65] := by
  unfold decodeGroupF
  split <;> simp_all

theorem exists_ite_eq_ok_iff {c : Prop} [Decidable c] (i : Instr) (r : Except DecodeError Instr) :
    (∃ instr, (if c then .ok i else r) = .ok instr) ↔ c ∨ ∃ instr, r = .ok instr := by
  by_cases h : c <;> simp [h]

/-- The decoder accepts what the opcode map accepts (R64, R66): once the group is known, only the rows of
that group are left, and they name the values of the field on which the decoder branches. -/
theorem decodeWord_ok_iff (w : Word) :
    (∃ instr, decodeWord w = .ok instr) ↔ wordWellFormed w = true := by
  simp only [wordWellFormed, opcodeRows, opcodeRowsFix, opcodeRowsGroup, opcodeRowsNibble, opcodeRowsByte,
    List.cons_append, List.nil_append, List.any_cons, List.any_nil, Bool.or_false,
    Bool.or_eq_true, selects_fix_iff, selects_group_iff, selects_nibble_iff, selects_byte_iff]
  have group := fieldG_lt w
  rw [decodeWord]
  interval_cases g : fieldG w <;>
    simp [g, eq_iff_fields, exists_ite_eq_ok_iff, decodeGroup8_ok_iff, decodeGroupE_ok_iff,
      decodeGroupF_ok_iff]

theorem decodeWord_error_iff (w : Word) :
    (∃ e, decodeWord w = .error e) ↔ wordWellFormed w = false := by
  rw [← Bool.not_eq_true, ← decodeWord_ok_iff]
  cases decodeWord w <;> simp

end Sys2Proof
end

