-- ==== Sys2Proof/Proofs/RaisedErrors.lean ====
section
/-! The errors a cycle raises, each from its one place: the fetch, the decoder, or the execute step of an
instruction that checks (spec/60_exceptions.md R250 to R258). -/

namespace Sys2Proof.Machine

open Sys2Proof.Claims

/-- Fetch answers the word at `PC`, and only from an address of at most 4094 (R211). -/
theorem fetch_eq_some_iff {s : State} {w : Word} :
    fetch s = some w ↔ s.pc ≤ 4094 ∧ BitVec.ofNat 16 (wordAtPc s) = w := by
  by_cases inMemory : s.pc + 1 < 4096
  · have low : s.pc ≤ 4094 := by omega
    simp [fetch_of_lt inMemory, low, wordOf, wordAtPc]
  · have high : ¬ s.pc ≤ 4094 := by omega
    simp [fetch_of_ge (Nat.le_of_not_lt inMemory), high]

/-- A check that raises raises its own error, and only when it fails (R214). -/
theorem guard_fault_iff {c : Prop} [Decidable c] {v : State} {e₀ e : Fault} :
    (if c then .next v else raise e₀) = (.fault e : Result) ↔ ¬ c ∧ e = e₀ := by
  by_cases h : c <;> simp [h, raise, eq_comm]

/-- The bytes from `I` whose range an instruction checks; 0 where it accesses no memory (R143, R156). -/
def accessedBytes : Instr → Nat
  | .drw _ _ n => n.toNat
  | .ldBVx _ => 3
  | .ldMemVx x | .ldVxMem x => x.val + 1
  | _ => 0

@[simp] theorem rangeInMemory_zero (s : State) : rangeInMemory s 0 = true := by simp [rangeInMemory]

/-- A return raises on an empty stack only (R258). -/
theorem execRet_fault_iff {s : State} {e : Fault} :
    execRet s = .fault e ↔ s.sp.val = 0 ∧ e = .noCall := by
  by_cases empty : s.sp.val = 0
  · simp [execRet, popPc_empty s empty, empty, raise, eq_comm]
  · simp [execRet, popPc_some s empty, empty]

/-- A glyph lookup raises above 15 only (R255). -/
theorem execLdFVx_fault_iff {x : RegId} {s : State} {e : Fault} :
    execLdFVx x s = .fault e ↔ 15 < (getReg s x).toNat ∧ e = .invalidArguments := by
  unfold execLdFVx
  split <;> simp_all [raise, eq_comm]

/-- A wait for key raises nothing (R178). -/
theorem execLdVxK_ne_fault {x : RegId} {s : State} {e : Fault} : execLdVxK x s ≠ .fault e := by
  simp only [execLdVxK]
  split <;> simp

/-- All that execute can raise: RET on an empty stack, a memory access whose range fails its check, and a
glyph lookup above 15 (R254, R255, R258). Every other instruction completes. -/
theorem exec_fault_iff {instr : Instr} {s : State} {e : Fault} :
    exec instr s = .fault e ↔
      (e = .noCall ∧ instr = .ret ∧ s.sp.val = 0) ∨
      (e = .memoryAddressNotFound ∧ ¬ rangeInMemory s (accessedBytes instr) = true) ∨
      (e = .invalidArguments ∧ ∃ x, instr = .ldFVx x ∧ 15 < (getReg s x).toNat) := by
  cases instr with
  | ret => exact execRet_fault_iff.trans (by simp [accessedBytes, and_comm])
  | drw _ _ _ | ldBVx _ | ldMemVx _ | ldVxMem _ =>
    exact guard_fault_iff.trans (by simp [accessedBytes, and_comm])
  | ldFVx _ => exact execLdFVx_fault_iff.trans (by simp [accessedBytes, and_comm])
  | ldVxK _ => exact iff_of_false execLdVxK_ne_fault (by simp [accessedBytes])
  | _ => exact iff_of_false nofun (by simp [accessedBytes])

/-- A cycle whose word does not decode raises (R212, R253). -/
theorem step_of_decode_error {s : State} {w : Word} {why : DecodeError} (fetched : fetch s = some w)
    (fails : decodeWord w = .error why) : step s = .fault .invalidOpcode := by
  simp [step, fetched, fails, raise]

/-- Ending a cycle raises nothing of its own (R210, R214). -/
theorem finishCycle_fault_iff {instr : Instr} {r : Result} {e : Fault} :
    finishCycle instr r = .fault e ↔ r = .fault e := by
  cases r <;> simp [finishCycle]

/-- The three stages of a cycle that raise: the fetch, the decoder, and the execute step (R210, R214). -/
theorem step_fault_iff {s : State} {e : Fault} :
    step s = .fault e ↔
      (e = .memoryAddressNotFound ∧ fetch s = none) ∨
      (e = .invalidOpcode ∧ ∃ w, fetch s = some w ∧ wordWellFormed w = false) ∨
      (∃ instr, decodedAt s instr ∧ exec instr s = .fault e) := by
  simp only [decodedAt_iff, ← decodeWord_error_iff]
  cases fetched : fetch s with
  | none => simp [step_of_fetch_none fetched, eq_comm]
  | some w =>
    cases decodes : decodeWord w with
    | error _ => simp [step_of_decode_error fetched decodes, decodes, eq_comm]
    | ok instr => simp [step_decoded fetched decodes, decodes, finishCycle_fault_iff]

/-- A raised error leaves the host's state as it was, `NoCall` apart (R252, R258). -/
theorem hostCycle_of_fault {s : State} {e : Fault} (raised : step s = .fault e) (notNoCall : e ≠ .noCall) :
    hostCycle s = (.status e.status, s) := by
  rw [hostCycle, raised]
  cases e with
  | noCall => exact absurd rfl notNoCall
  | _ => rfl

/-- Settles O8: of the three stages only the decoder raises `InvalidOpcode`. -/
theorem invalidOpcodeExactlyOnUnmatchedWords : Obligations.InvalidOpcodeExactlyOnUnmatchedWords := by
  unfold Obligations.InvalidOpcodeExactlyOnUnmatchedWords
  intro s
  refine ⟨?_, fun raised => hostCycle_of_fault raised nofun⟩
  have fromDecoder : step s = .fault .invalidOpcode ↔ ∃ w, fetch s = some w ∧ wordWellFormed w = false := by
    simp [step_fault_iff, exec_fault_iff]
  rw [fromDecoder]
  simp [fetch_eq_some_iff, and_assoc]

/-- Settles O10: only the execute step raises `InvalidArguments`, and there only the glyph lookup. -/
theorem invalidArgumentsExactlyOnGlyphAbove15 : Obligations.InvalidArgumentsExactlyOnGlyphAbove15 := by
  unfold Obligations.InvalidArgumentsExactlyOnGlyphAbove15
  intro s
  have fromExec : step s = .fault .invalidArguments ↔
      ∃ instr, decodedAt s instr ∧ ∃ x, instr = .ldFVx x ∧ 15 < (getReg s x).toNat := by
    simp [step_fault_iff, exec_fault_iff]
  rw [fromExec]
  constructor
  · rintro ⟨_, decoded, x, rfl, above⟩
    exact ⟨x, decoded, above⟩
  · rintro ⟨x, decoded, above⟩
    exact ⟨_, decoded, x, rfl, above⟩

end Sys2Proof.Machine
end

