-- ==== Sys2Proof/Proofs/Encoding.lean ====
section
/-! The decoder and the encoder undo each other, and the opcode map tells the tags apart
(spec/30_encoding.md R61 to R68). -/

namespace Sys2Proof

/-! ### A word is put together from its fields -/

theorem encodeA_fields {w : Word} {g : Nat} (group : fieldG w = g) :
    encodeA g (fieldNNN w) = w := by
  subst group
  apply BitVec.eq_of_toNat_eq
  rw [encodeA_toNat _ (fieldG_lt w), fieldG_eq, fieldNNN_toNat]
  omega

theorem encodeXI_fields {w : Word} {g : Nat} (group : fieldG w = g) :
    encodeXI g (fieldX w) (fieldNN w) = w := by
  subst group
  apply BitVec.eq_of_toNat_eq
  rw [encodeXI_toNat _ (fieldG_lt w), fieldG_eq, fieldX_val, fieldNN_toNat]
  omega

theorem encodeXYN_fields {w : Word} {g : Nat} (group : fieldG w = g) :
    encodeXYN g (fieldX w) (fieldY w) (fieldN w) = w := by
  subst group
  apply BitVec.eq_of_toNat_eq
  rw [encodeXYN_toNat _ (fieldG_lt w), fieldG_eq, fieldX_val, fieldY_val, fieldN_toNat]
  omega

/-! ### Decoding what was encoded -/

/-- The decoder branches on the group and on the fixed low bits, which the encoding put there, and reads back
the operand fields. -/
theorem decodeWord_encode (instr : Instr) : decodeWord (encode instr) = .ok instr := by
  cases instr with
  | cls | ret => rfl
  | jp nnn | call nnn | ldI nnn | jpV0 nnn => simp [encode, decodeWord]
  | seImm x nn | sneImm x nn | ldImm x nn | addImm x nn | rnd x nn => simp [encode, decodeWord]
  | skp x | sknp x => simp [encode, decodeWord, decodeGroupE]
  | ldVxDt x | ldVxK x | ldDtVx x | ldStVx x | addIVx x | ldFVx x | ldBVx x | ldMemVx x | ldVxMem x =>
    simp [encode, decodeWord, decodeGroupF]
  | seReg x y | sneReg x y | drw x y n => simp [encode, decodeWord]
  | ldReg x y | orReg x y | andReg x y | xorReg x y | addReg x y | subReg x y | shr x y | subn x y
  | shl x y => simp [encode, decodeWord, decodeGroup8]

/-- Settles O1: the two bytes join to the encoded word, which decodes to the instruction. -/
theorem decodeOfEncodedBytes : Obligations.DecodeOfEncodedBytes := by
  unfold Obligations.DecodeOfEncodedBytes
  intro instr rest
  simp [encodeBytes, decodeBytes, decodeWord_encode]

/-! ### Encoding what was decoded -/

theorem encode_of_decodeGroup8 {x y : RegId} {n : Nibble} {instr : Instr}
    (h : decodeGroup8 x y n.toNat = .ok instr) : encode instr = encodeXYN 0x8 x y n := by
  unfold decodeGroup8 at h
  split at h <;> cases h <;> next value => rw [encode, encodeXYN, encodeXYN, value]; rfl

theorem encode_of_decodeGroupE {x : RegId} {nn : Byte} {instr : Instr}
    (h : decodeGroupE x nn.toNat = .ok instr) : encode instr = encodeXI 0xE x nn := by
  unfold decodeGroupE at h
  split at h <;> cases h <;> next value => rw [encode, encodeXI, encodeXI, value]; rfl

theorem encode_of_decodeGroupF {x : RegId} {nn : Byte} {instr : Instr}
    (h : decodeGroupF x nn.toNat = .ok instr) : encode instr = encodeXI 0xF x nn := by
  unfold decodeGroupF at h
  split at h <;> cases h <;> next value => rw [encode, encodeXI, encodeXI, value]; rfl

/-- Within its group a word is the encoding of the fields the decoder read, and the bits it branched on are
the fixed ones of the tag. -/
theorem encode_of_decodeWord {w : Word} {instr : Instr} (h : decodeWord w = .ok instr) :
    encode instr = w := by
  unfold decodeWord at h
  split at h
  case h_1 =>
    split at h
    · next word => cases h; exact word.symm
    · split at h
      · next word => cases h; exact word.symm
      · cases h
  case h_2 g | h_3 g | h_11 g | h_12 g => cases h; exact encodeA_fields g
  case h_4 g | h_5 g | h_7 g | h_8 g | h_13 g => cases h; exact encodeXI_fields g
  case h_6 g | h_10 g =>
    split at h
    · next low =>
      cases h
      have nibble : fieldN w = 0 := BitVec.eq_of_toNat_eq low
      rw [encode, ← nibble]
      exact encodeXYN_fields g
    · cases h
  case h_9 g => exact (encode_of_decodeGroup8 h).trans (encodeXYN_fields g)
  case h_14 g => cases h; exact encodeXYN_fields g
  case h_15 g => exact (encode_of_decodeGroupE h).trans (encodeXI_fields g)
  case h_16 g => exact (encode_of_decodeGroupF h).trans (encodeXI_fields g)
  case h_17 => cases h

/-- Settles O2: the decoder drops no field of the word. -/
theorem encodeOfDecodedWord : Obligations.EncodeOfDecodedWord := by
  unfold Obligations.EncodeOfDecodedWord
  exact fun _ _ => encode_of_decodeWord

/-! ### One row for each word -/

open Laws in
/-- Each tag's row is in the map and selects the tag's encodings (R64, R65). -/
theorem encodingRow (instr : Instr) : EncodingRow.Statement instr :=
  match instr with
  | .cls => EncodingRow.cls
  | .ret => EncodingRow.ret
  | .jp nnn => EncodingRow.jp nnn
  | .call nnn => EncodingRow.call nnn
  | .seImm x nn => EncodingRow.seImm x nn
  | .sneImm x nn => EncodingRow.sneImm x nn
  | .seReg x y => EncodingRow.seReg x y
  | .ldImm x nn => EncodingRow.ldImm x nn
  | .addImm x nn => EncodingRow.addImm x nn
  | .ldReg x y => EncodingRow.ldReg x y
  | .orReg x y => EncodingRow.orReg x y
  | .andReg x y => EncodingRow.andReg x y
  | .xorReg x y => EncodingRow.xorReg x y
  | .addReg x y => EncodingRow.addReg x y
  | .subReg x y => EncodingRow.subReg x y
  | .shr x y => EncodingRow.shr x y
  | .subn x y => EncodingRow.subn x y
  | .shl x y => EncodingRow.shl x y
  | .sneReg x y => EncodingRow.sneReg x y
  | .ldI nnn => EncodingRow.ldI nnn
  | .jpV0 nnn => EncodingRow.jpV0 nnn
  | .rnd x nn => EncodingRow.rnd x nn
  | .drw x y n => EncodingRow.drw x y n
  | .skp x => EncodingRow.skp x
  | .sknp x => EncodingRow.sknp x
  | .ldVxDt x => EncodingRow.ldVxDt x
  | .ldVxK x => EncodingRow.ldVxK x
  | .ldDtVx x => EncodingRow.ldDtVx x
  | .ldStVx x => EncodingRow.ldStVx x
  | .addIVx x => EncodingRow.addIVx x
  | .ldFVx x => EncodingRow.ldFVx x
  | .ldBVx x => EncodingRow.ldBVx x
  | .ldMemVx x => EncodingRow.ldMemVx x
  | .ldVxMem x => EncodingRow.ldVxMem x

/-- Two rows are told apart when their patterns differ in a bit that both masks keep. -/
def OpcodeRow.disjoint (row other : OpcodeRow) : Prop :=
  row.pattern &&& other.mask ≠ other.pattern &&& row.mask

theorem OpcodeRow.not_selects_of_disjoint {row other : OpcodeRow} {w : Word} (apart : row.disjoint other)
    (selected : row.selects w = true) : ¬ other.selects w = true := by
  simp only [OpcodeRow.selects, beq_iff_eq] at selected ⊢
  intro other_selected
  apply apart
  rw [← selected, ← other_selected, BitVec.and_assoc, BitVec.and_assoc, BitVec.and_comm row.mask]

theorem opcodeRows_pairwise_disjoint : opcodeRows.Pairwise OpcodeRow.disjoint := by
  unfold OpcodeRow.disjoint
  decide

theorem length_filter_selects_le_one (w : Word) : (opcodeRows.filter (·.selects w)).length ≤ 1 := by
  have apart : (opcodeRows.filter (·.selects w)).Pairwise OpcodeRow.disjoint :=
    opcodeRows_pairwise_disjoint.filter _
  have selects : ∀ row ∈ opcodeRows.filter (·.selects w), row.selects w = true :=
    fun _ mem => (List.mem_filter.mp mem).2
  generalize opcodeRows.filter (·.selects w) = rows at apart selects ⊢
  match rows with
  | [] | [_] => simp
  | row :: other :: _ =>
    have differ : row.disjoint other := List.rel_of_pairwise_cons apart (by simp)
    have notOther := OpcodeRow.not_selects_of_disjoint differ (selects row (by simp))
    exact absurd (selects other (by simp)) notOther

/-- Settles O3: the decoder accepts what the map accepts, the rows are pairwise disjoint, and a decoded word is
its tag's encoding, which the tag's row selects. -/
theorem oneRowSelectsEachDecodedWord : Obligations.OneRowSelectsEachDecodedWord := by
  unfold Obligations.OneRowSelectsEachDecodedWord
  intro w
  refine ⟨decodeWord_ok_iff w, length_filter_selects_le_one w, ?_⟩
  intro instr decodes
  obtain rfl := encode_of_decodeWord decodes
  exact encodingRow instr

/-! ### The words that do not decode -/

theorem decodeGroup8_error_iff (x y : RegId) (n : Nibble) :
    decodeGroup8 x y n.toNat = .error .invalidOpcode ↔ n.toNat ∈ [0x8, 0x9, 0xA, 0xB, 0xC, 0xD, 0xF] := by
  have small := n.isLt
  unfold decodeGroup8
  split <;> simp_all
  omega

theorem decodeGroupE_error_iff (x : RegId) (nn : Nat) :
    decodeGroupE x nn = .error .invalidOpcode ↔ nn ∉ [0x9E, 0xA1] := by
  unfold decodeGroupE
  split <;> simp_all

theorem decodeGroupF_error_iff (x : RegId) (nn : Nat) :
    decodeGroupF x nn = .error .invalidOpcode ↔
      nn ∉ [0x07, 0x0A, 0x15, 0x18, 0x1E, 0x29, 0x33, 0x55, 0x65] := by
  unfold decodeGroupF
  split <;> simp_all

/-- Settles O4: group by group, the words whose low bits name no tag. -/
theorem invalidWordsByGroup : Obligations.InvalidWordsByGroup := by
  unfold Obligations.InvalidWordsByGroup
  intro w
  have number (p : Word) : w = p ↔ w.toNat = p.toNat := BitVec.toNat_inj.symm
  rw [← fieldG_eq, ← fieldN_toNat, ← fieldNN_toNat, decodeWord]
  have group := fieldG_lt w
  interval_cases g : fieldG w <;>
    simp [number, ite_eq_iff, decodeGroup8_error_iff, decodeGroupE_error_iff, decodeGroupF_error_iff]

/-- Settles O5, by running the decoder. -/
theorem sampleWordsDecode : Obligations.SampleWordsDecode := by
  unfold Obligations.SampleWordsDecode
  decide

end Sys2Proof
end

