-- ==== Sys2Proof/Proofs/CycleEnds.lean ====
section
/-! How a cycle ends, from the instruction at `PC`: the cycle as its execute step and the end of the cycle, the
four errors and nothing else, and what the host's `cycle` answers for each (spec/48_cycle_driver.md R210 to
R217, spec/60_exceptions.md R250 to R258). -/

namespace Sys2Proof.Machine

open Sys2Proof.Claims

/-! ### The cycle of the instruction at `PC` -/

theorem step_of_decodedAt {s : State} {instr : Instr} (decoded : decodedAt s instr) :
    step s = finishCycle instr (exec instr s) := by
  obtain ⟨w, fetched, decodes⟩ := (decodedAt_iff s instr).mp decoded
  exact step_decoded fetched decodes

theorem step_of_exec_next {s u : State} {instr : Instr} (decoded : decodedAt s instr)
    (executed : exec instr s = .next u) : step s = .next (endCycle instr u) := by
  rw [step_of_decodedAt decoded, executed, finishCycle]

/-- A completed cycle started below address 4095 and had an instruction to execute (R211, R212). -/
theorem decodedAt_of_step_next {s t : State} (completed : step s = .next t) :
    ∃ instr u, decodedAt s instr ∧ exec instr s = .next u ∧ t = endCycle instr u := by
  obtain ⟨w, instr, u, fetched, decodes, executed, ended⟩ := step_next completed
  exact ⟨instr, u, (decodedAt_iff s instr).mpr ⟨w, fetched, decodes⟩, executed, ended⟩

theorem setsPc_eq_isJumpCallOrReturn (instr : Instr) : setsPc instr = isJumpCallOrReturn instr := by
  cases instr <;> rfl

/-- The end of a cycle as the statements write it out: the tick, and the advance unless `PC` was set or held
(R193, R216). -/
theorem endCycle_eq_endOfCycle (instr : Instr) (u : State) :
    endCycle instr u = endOfCycle (isJumpCallOrReturn instr = true) u := by
  rw [endCycle, advancePc, setsPc_eq_isJumpCallOrReturn]
  split <;> simp_all [endOfCycle, tickTimers, tickTimer]

/-- Settles O6: the cycle of a decoded instruction is its execute step, finished. -/
theorem stepRunsTheDecodedInstruction : Obligations.StepRunsTheDecodedInstruction := by
  unfold Obligations.StepRunsTheDecodedInstruction
  intro s instr decoded
  constructor
  · intro u executed
    rw [step_of_exec_next decoded executed, endCycle_eq_endOfCycle]
  · intro e raised
    rw [step_of_decodedAt decoded, raised, finishCycle]

/-! ### Every cycle completes or raises -/

theorem guard_ne_refused {c : Prop} [Decidable c] {v : State} {e : Fault} {why : Refusal} :
    (if c then .next v else raise e) ≠ (.refused why : Result) := by
  split <;> nofun

/-- Each of the 34 arms gives a meaning: none refuses. -/
theorem exec_ne_refused (instr : Instr) (s : State) (why : Refusal) : exec instr s ≠ .refused why := by
  cases instr with
  | ret =>
    simp only [exec, execRet]
    split <;> nofun
  | drw _ _ _ | ldBVx _ | ldMemVx _ | ldVxMem _ =>
    exact guard_ne_refused
  | ldFVx _ =>
    simp only [exec, execLdFVx]
    split <;> nofun
  | ldVxK _ =>
    simp only [exec, execLdVxK]
    split <;> nofun
  | _ => nofun

theorem step_ne_refused (s : State) (why : Refusal) : step s ≠ .refused why := by
  intro refused
  unfold step at refused
  split at refused
  · cases refused
  · split at refused
    · cases refused
    · next instr _ =>
      cases executed : exec instr s with
      | refused why' => exact exec_ne_refused instr s why' executed
      | next _ | fault _ => rw [executed] at refused; cases refused

/-- Settles O12: no cycle is refused, and the errors are the four of `Fault`. -/
theorem everyCycleEnds : Obligations.EveryCycleEnds := by
  unfold Obligations.EveryCycleEnds
  intro s
  cases ended : step s with
  | next t => exact .inl ⟨t, rfl⟩
  | fault e => cases e <;> simp
  | refused why => exact absurd ended (step_ne_refused s why)

/-! ### Which cycle raises which error -/

/-- The instructions that access memory, each with the last offset of its range (R254). -/
theorem not_rangeInMemory_accessedBytes_iff (s : State) (instr : Instr) :
    ¬ rangeInMemory s (accessedBytes instr) = true ↔
      (∃ x y n, instr = .drw x y n ∧ 0 < n.toNat ∧ 4096 ≤ s.i.toNat + n.toNat - 1) ∨
      (∃ x, instr = .ldBVx x ∧ 4096 ≤ s.i.toNat + 2) ∨
      (∃ x, instr = .ldMemVx x ∧ 4096 ≤ s.i.toNat + x.val) ∨
      (∃ x, instr = .ldVxMem x ∧ 4096 ≤ s.i.toNat + x.val) := by
  rw [rangeInMemory_iff]
  cases instr with
  | drw x y n => simp [accessedBytes]; omega
  | ldBVx x | ldMemVx x | ldVxMem x => simp [accessedBytes]
  | _ => simp [accessedBytes]

/-- Settles O9: the fetch raises the address error, and so does the execute step of an instruction whose range
leaves memory. -/
theorem addressErrorExactlyPastMemory : Obligations.AddressErrorExactlyPastMemory := by
  unfold Obligations.AddressErrorExactlyPastMemory
  intro s
  have fetchFails : fetch s = none ↔ 4095 ≤ s.pc := by
    rw [fetch_eq, ite_eq_right_iff]
    simp
  have fromStages : step s = .fault .memoryAddressNotFound ↔
      fetch s = none ∨ ∃ instr, decodedAt s instr ∧ ¬ rangeInMemory s (accessedBytes instr) = true := by
    simp [step_fault_iff, exec_fault_iff]
  simp only [fromStages, fetchFails, not_rangeInMemory_accessedBytes_iff]
  refine or_congr_right ⟨?_, ?_⟩
  · rintro ⟨_, decoded,
      ⟨x, y, n, rfl, range⟩ | ⟨x, rfl, range⟩ | ⟨x, rfl, range⟩ | ⟨x, rfl, range⟩⟩
    · exact .inl ⟨x, y, n, decoded, range⟩
    · exact .inr (.inl ⟨x, decoded, range⟩)
    · exact .inr (.inr (.inl ⟨x, decoded, range⟩))
    · exact .inr (.inr (.inr ⟨x, decoded, range⟩))
  · rintro (⟨x, y, n, decoded, range⟩ | ⟨x, decoded, range⟩ | ⟨x, decoded, range⟩ |
      ⟨x, decoded, range⟩)
    · exact ⟨_, decoded, .inl ⟨x, y, n, rfl, range⟩⟩
    · exact ⟨_, decoded, .inr (.inl ⟨x, rfl, range⟩)⟩
    · exact ⟨_, decoded, .inr (.inr (.inl ⟨x, rfl, range⟩))⟩
    · exact ⟨_, decoded, .inr (.inr (.inr ⟨x, rfl, range⟩))⟩

/-- The host's `cycle` after `NoCall`: `PC` is a free value, and the count of free values goes on
(R258, D7). -/
theorem hostCycle_of_noCall {s : State} (raised : step s = .fault .noCall) :
    hostCycle s = (.status .noCall, { s with pc := Config.noCallPc s.draws, draws := s.draws + 1 }) := by
  rw [hostCycle, raised]

/-- Settles O11: of the three stages only the execute step raises `NoCall`, and there only RET. -/
theorem noCallExactlyOnEmptyReturn : Obligations.NoCallExactlyOnEmptyReturn := by
  unfold Obligations.NoCallExactlyOnEmptyReturn
  intro s
  refine ⟨?_, fun raised => ⟨_, hostCycle_of_noCall raised⟩⟩
  have fromExec : step s = .fault .noCall ↔
      ∃ instr, decodedAt s instr ∧ instr = .ret ∧ s.sp.val = 0 := by
    simp [step_fault_iff, exec_fault_iff]
  rw [fromExec]
  constructor
  · rintro ⟨_, decoded, rfl, empty⟩
    exact ⟨decoded, Fin.ext empty⟩
  · rintro ⟨decoded, empty⟩
    exact ⟨_, decoded, rfl, congrArg Fin.val empty⟩

/-! ### What the host's `cycle` answers -/

theorem hostCycle_of_next {s t : State} (completed : step s = .next t) :
    hostCycle s = (.status (reportedStatus s), t) := by
  rw [hostCycle, completed]

/-- The three shapes of the answer: a completed cycle, an error that leaves the state, and `NoCall`
(R217, R252, R258). -/
theorem hostCycle_cases (s : State) :
    (∃ t, step s = .next t ∧ hostCycle s = (.status (reportedStatus s), t)) ∨
    (∃ e, step s = .fault e ∧ e ≠ .noCall ∧ hostCycle s = (.status e.status, s)) ∨
    (step s = .fault .noCall ∧
      hostCycle s = (.status .noCall, { s with pc := Config.noCallPc s.draws, draws := s.draws + 1 })) := by
  cases ended : step s with
  | next t => exact .inl ⟨t, rfl, hostCycle_of_next ended⟩
  | refused why => exact absurd ended (step_ne_refused s why)
  | fault e =>
    by_cases noCall : e = .noCall
    · subst noCall
      exact .inr (.inr ⟨rfl, hostCycle_of_noCall ended⟩)
    · exact .inr (.inl ⟨e, rfl, noCall, hostCycle_of_fault ended noCall⟩)

theorem reportedStatus_of_decodedAt {s : State} {instr : Instr} (decoded : decodedAt s instr) :
    reportedStatus s = execStatus instr s := by
  obtain ⟨w, fetched, decodes⟩ := (decodedAt_iff s instr).mp decoded
  exact reportedStatus_decoded fetched decodes

/-- A CALL on a full stack reports `StackOverflow`, and nothing else does (R217, R257). -/
theorem execStatus_call (nnn : Addr) (s : State) :
    execStatus (.call nnn) s = if s.sp = 16 then .stackOverflow else .ok := by
  simp only [execStatus, pushStatus, Fin.ext_iff]
  rfl

theorem execStatus_ok_or_stackOverflow (instr : Instr) (s : State) :
    execStatus instr s = .ok ∨ execStatus instr s = .stackOverflow := by
  rw [execStatus_eq]
  split
  · rw [pushStatus_eq]; split <;> simp
  · exact .inl rfl

theorem reportedStatus_ok_or_stackOverflow (s : State) :
    reportedStatus s = .ok ∨ reportedStatus s = .stackOverflow := by
  unfold reportedStatus
  split
  · exact .inl rfl
  · split
    · exact .inl rfl
    · exact execStatus_ok_or_stackOverflow _ s

/-- Settles O13: the answer is a status in each of its three shapes. -/
theorem oneStatusAndItIsNotRead : Obligations.OneStatusAndItIsNotRead := by
  unfold Obligations.OneStatusAndItIsNotRead
  intro s
  refine ⟨?_, ?_, ?_⟩
  · obtain ⟨t, -, answer⟩ | ⟨e, -, -, answer⟩ | ⟨-, answer⟩ := hostCycle_cases s
    · refine ⟨reportedStatus s, by rw [answer], ?_⟩
      obtain status | status := reportedStatus_ok_or_stackOverflow s <;> simp [status]
    · exact ⟨e.status, by rw [answer], by cases e <;> simp [Fault.status]⟩
    · exact ⟨.noCall, by rw [answer], by simp⟩
  · intro t completed
    rw [hostCycle_of_next completed]
    obtain status | status := reportedStatus_ok_or_stackOverflow s <;> simp [status]
  · intro e raised
    by_cases noCall : e = .noCall
    · subst noCall
      rw [hostCycle_of_noCall raised, Fault.status]
    · rw [hostCycle_of_fault raised noCall]

/-- Settles O14: the status of a completed cycle is that of the instruction executed. -/
theorem stackOverflowExactlyOnFullCall : Obligations.StackOverflowExactlyOnFullCall := by
  unfold Obligations.StackOverflowExactlyOnFullCall
  intro s t completed
  obtain ⟨instr, u, decoded, -, -⟩ := decodedAt_of_step_next completed
  rw [hostCycle_of_next completed]
  constructor
  · rintro ⟨⟨nnn, call⟩, full⟩
    rw [reportedStatus_of_decodedAt call, execStatus_call, if_pos full]
  · intro notFullCall
    rw [reportedStatus_of_decodedAt decoded]
    cases instr with
    | call nnn =>
      have room : s.sp ≠ 16 := fun full => notFullCall ⟨⟨nnn, decoded⟩, full⟩
      rw [execStatus_call, if_neg room]
    | _ => rfl

/-- A program that is refused changes nothing (R231, R259). -/
theorem hostLoadProgram_of_romTooBig {image : List Byte} {s : State}
    (refused : (hostLoadProgram image s).1 = .romTooBig) : (hostLoadProgram image s).2 = s := by
  unfold hostLoadProgram at refused ⊢
  split
  · next fits => simp [fits] at refused
  · rfl

/-- Settles O15: the state after each of the three shapes of the answer. -/
theorem errorsLeaveTheState : Obligations.ErrorsLeaveTheState := by
  unfold Obligations.ErrorsLeaveTheState
  intro s
  have load (image : List Byte) :
      (hostLoadProgram image s).1 = .romTooBig → (hostLoadProgram image s).2 = s :=
    hostLoadProgram_of_romTooBig
  obtain ⟨t, completed, answer⟩ | ⟨e, raised, notNoCall, answer⟩ | ⟨raised, answer⟩ :=
    hostCycle_cases s
  · rw [answer]
    refine ⟨?_, ?_, fun _ => completed, load⟩
    all_goals obtain status | status := reportedStatus_ok_or_stackOverflow s <;> simp [status]
  · rw [answer]
    refine ⟨fun _ _ _ => rfl, ?_, ?_, load⟩
    all_goals cases e <;> simp [Fault.status] at notNoCall ⊢
  · rw [answer]
    exact ⟨by simp, fun _ => ⟨_, rfl⟩, by simp, load⟩

end Sys2Proof.Machine
end

