-- ==== Sys2Proof/Proofs/ExecFrames.lean ====
section
/-! What an execute step leaves alone, piece of state by piece, for all instructions at once, and what follows
for `VF`, for `PC`, for the wait flag and for the environment's bytes (spec/10_state.md sections 2 to 8). -/

namespace Sys2Proof.Machine

open Sys2Proof.Claims Sys2Proof.Safety

/-! ### The frame of every instruction -/

/-- What the completed execute step of an instruction from `s` to `t` leaves alone. -/
structure ExecFrame (instr : Instr) (s t : State) : Prop where
  mem : (∀ x, instr ≠ .ldBVx x ∧ instr ≠ .ldMemVx x) → t.mem = s.mem
  fb : (∀ x y n, instr ≠ .cls ∧ instr ≠ .drw x y n) → t.fb = s.fb
  i : (∀ a x, instr ≠ .ldI a ∧ instr ≠ .addIVx x ∧ instr ≠ .ldFVx x) → t.i = s.i
  stack : (∀ a, instr ≠ .call a) → t.stack = s.stack
  sp : (∀ a, instr ≠ .call a ∧ instr ≠ .ret) → t.sp = s.sp
  dt : (∀ x, instr ≠ .ldDtVx x) → t.dt = s.dt
  st : (∀ x, instr ≠ .ldStVx x) → t.st = s.st
  wait : (∀ x, instr ≠ .ldVxK x) → t.wait = s.wait
  kq : (∀ x, instr ≠ .skp x ∧ instr ≠ .sknp x ∧ instr ≠ .ldVxK x) → t.kq = s.kq
  pc : isJumpCallOrReturn instr = false → isSkip instr = false → t.pc = s.pc
  draws : (∀ x nn, instr ≠ .rnd x nn) → t.draws = s.draws

/-- Of each instruction's result every field but those it names reads as before; the update lemmas of
Laws/State.lean say so field by field. -/
theorem exec_frame {instr : Instr} {s t : State} (h : exec instr s = .next t) : ExecFrame instr s t := by
  cases instr with
  | ret =>
    obtain ⟨-, rfl⟩ := execRet_next h
    constructor <;> simp
  | drw _ _ _ | ldBVx _ | ldMemVx _ | ldVxMem _ =>
    obtain ⟨-, rfl⟩ := next_of_guard h
    constructor <;> simp
  | ldFVx x =>
    obtain ⟨-, rfl⟩ := execLdFVx_next h
    constructor <;> simp
  | ldVxK x =>
    obtain ⟨k, -, rfl⟩ | ⟨-, rfl⟩ := execLdVxK_next h
    · constructor <;> simp
    · constructor <;> simp
  | _ => cases h; constructor <;> simp

/-- A register that the instruction does not name as a destination is left alone (R10, R14). -/
theorem exec_keeps_reg {instr : Instr} {s t : State} (h : exec instr s = .next t) {k : RegId}
    (kept : k ∉ destinations instr) : getReg t k = getReg s k := by
  cases instr with
  | ret =>
    obtain ⟨-, rfl⟩ := execRet_next h
    rfl
  | drw _ _ _ | ldBVx _ | ldMemVx _ =>
    obtain ⟨-, rfl⟩ := next_of_guard h
    simp_all [destinations]
  | ldVxMem x =>
    obtain ⟨-, rfl⟩ := next_of_guard h
    simp only [destinations, List.mem_filter, List.mem_finRange, true_and, decide_eq_true_iff] at kept
    rw [getReg_setRegs, get_loadRegs, if_neg kept, getReg]
  | ldFVx x =>
    obtain ⟨-, rfl⟩ := execLdFVx_next h
    simp
  | ldVxK x =>
    obtain ⟨k, -, rfl⟩ | ⟨-, rfl⟩ := execLdVxK_next h
    · simp_all [destinations]
    · simp
  | _ => cases h; simp_all [destinations]

/-- Settles O24, from the frame of every instruction; only CALL reports a status. -/
theorem eachPieceChangesOnlyByItsInstructions : Obligations.EachPieceChangesOnlyByItsInstructions := by
  unfold Obligations.EachPieceChangesOnlyByItsInstructions
  intro instr s t h
  have frame := exec_frame h
  have bytes (notStore : ∀ x, instr ≠ .ldBVx x ∧ instr ≠ .ldMemVx x) :
      sameBytes s t ∧ t.mem = s.mem :=
    ⟨fun a => by rw [frame.mem notStore], frame.mem notStore⟩
  have stack (notCall : ∀ a, instr ≠ .call a) : t.stack = s.stack ∧ execStatus instr s = .ok := by
    refine ⟨frame.stack notCall, ?_⟩
    rw [execStatus_eq]
    split
    · exact absurd rfl (notCall _)
    · rfl
  exact ⟨bytes, frame.fb, frame.i, stack, frame.sp, frame.dt, frame.st, frame.wait, frame.kq, frame.pc,
    frame.draws, fun _ => exec_keeps_reg h⟩

/-! ### The flag register -/

theorem flagByte_eq_zero_or_one (b : Bool) : flagByte b = 0 ∨ flagByte b = 1 := by
  cases b
  · exact .inl rfl
  · exact .inr rfl

/-- Settles O25: the flag is written last, and `R[15]` is otherwise written as a destination only. -/
theorem onlyFlagWritersWriteVf : Obligations.OnlyFlagWritersWriteVf := by
  unfold Obligations.OnlyFlagWritersWriteVf
  intro instr s t h
  have kept : 15 ∉ destinations instr → getReg t 15 = getReg s 15 := exec_keeps_reg h
  cases instr with
  | addReg x y | subReg x y | subn x y | shr x y | shl x y =>
    cases h
    rw [getReg_setRegThenFlag, if_pos rfl]
    exact flagByte_eq_zero_or_one _
  | drw x y n =>
    obtain ⟨-, rfl⟩ := next_of_guard h
    rw [getReg_setFlag, if_pos rfl]
    exact flagByte_eq_zero_or_one _
  | ldVxMem x =>
    intro notVf
    have below : ¬ (15 : RegId) ≤ x := fun top => notVf (le_antisymm (Fin.le_last x) top)
    exact kept (by simp [destinations, below])
  | ldImm x _ | addImm x _ | ldReg x _ | orReg x _ | andReg x _ | xorReg x _ | rnd x _ | ldVxDt x | ldVxK x =>
    intro notVf
    exact kept (by simp [destinations, notVf.symm])
  | _ => exact kept (by simp [destinations])

/-! ### The program counter -/

/-- A skip leaves `PC` or adds 2 to it, its own part of the advance (R108). -/
theorem exec_skip_pc {instr : Instr} {s u : State} (h : exec instr s = .next u) (skip : isSkip instr = true) :
    u.pc = s.pc ∨ u.pc = s.pc + 2 := by
  cases instr with
  | seImm _ _ | sneImm _ _ | seReg _ _ | sneReg _ _ | skp _ | sknp _ =>
    cases h
    rw [skipIf_pc]
    split <;> simp
  | _ => cases skip

/-- The `PC` that the cycle of an instruction other than the jumps, CALL and RET leaves (R216). -/
theorem endCycle_pc_of_not_jump {instr : Instr} (notJump : isJumpCallOrReturn instr = false) (u : State) :
    (endCycle instr u).pc = if u.wait then u.pc else u.pc + 2 := by
  rw [endCycle_pc, setsPc_eq_isJumpCallOrReturn, notJump, Bool.false_or]

/-- Settles O17: the advance tests `WAIT` after execute, which no instruction but FX0A writes. -/
theorem pcAdvancesByTwoUnlessWaiting : Obligations.PcAdvancesByTwoUnlessWaiting := by
  unfold Obligations.PcAdvancesByTwoUnlessWaiting
  intro s t instr decoded completed notJump notWait
  obtain ⟨u, executed, rfl⟩ := step_next_of_decodedAt decoded completed
  have frame := exec_frame executed
  rw [endCycle_pc_of_not_jump notJump, frame.wait notWait]
  refine ⟨fun notSkip => by rw [frame.pc notJump notSkip], ?_, ?_⟩
  · intro skip waiting
    rw [if_pos waiting]
    exact exec_skip_pc executed skip
  · intro skip notWaiting
    rw [notWaiting]
    have := exec_skip_pc executed skip
    rw [if_neg Bool.false_ne_true]
    omega

/-! ### Settled runs -/

/-- A settled state is about to jump to where it is (R220). -/
theorem settled_iff (s : State) :
    settled s = true ↔ s.pc < 4096 ∧ decodedAt s (.jp (BitVec.ofNat 12 s.pc)) := by
  rw [decodedAt_iff]
  unfold settled
  split
  · next none => simp [none]
  · next w fetched =>
    have jump : w = encode (.jp (BitVec.ofNat 12 s.pc)) ↔
        decodeWord w = .ok (.jp (BitVec.ofNat 12 s.pc)) :=
      ⟨fun same => same ▸ decodeWord_encode _, fun decodes => (encode_of_decodeWord decodes).symm⟩
    simp [fetched, jump]

/-- The cycle of a jump moves `PC` to the target and ticks (R100). -/
theorem endCycle_jp (nnn : Addr) (s : State) :
    endCycle (.jp nnn) (jumpTo s nnn.toNat) =
      { s with pc := nnn.toNat, dt := tickTimer s.dt, st := tickTimer s.st } := by
  simp [endCycle, advancePc, setsPc, tickTimers, jumpTo]

theorem step_jp {s : State} {nnn : Addr} (decoded : decodedAt s (.jp nnn)) :
    step s = .next { s with pc := nnn.toNat, dt := tickTimer s.dt, st := tickTimer s.st } := by
  rw [step_of_exec_next decoded rfl, absTarget, endCycle_jp]

/-- Settles O19: the jump leaves `PC` where it is, so the next cycle fetches the same word. -/
theorem settledCyclesOnlyTick : Obligations.SettledCyclesOnlyTick := by
  unfold Obligations.SettledCyclesOnlyTick
  intro s isSettled
  obtain ⟨inMemory, decoded⟩ := (settled_iff s).mp isSettled
  have samePc : (BitVec.ofNat 12 s.pc).toNat = s.pc := by
    rw [BitVec.toNat_ofNat, Nat.mod_eq_of_lt inMemory]
  have completed : step s = .next { s with dt := tickTimer s.dt, st := tickTimer s.st } := by
    rw [step_jp decoded, samePc]
  refine ⟨_, completed, ?_, (settled_iff _).mpr ⟨inMemory, decoded⟩, rfl, tickTimer_toNat _,
    tickTimer_toNat _⟩
  rw [hostCycle_of_next completed, reportedStatus_of_decodedAt decoded, execStatus]

/-! ### The environment's bytes -/

theorem skipIf_draws_comm (c : Bool) (s : State) (d : Nat) :
    skipIf c { s with draws := d } = { skipIf c s with draws := d } := by
  cases c <;> rfl

theorem pushPc_draws_comm (s : State) (d : Nat) :
    pushPc { s with draws := d } = { pushPc s with draws := d } := by
  unfold pushPc
  split <;> rfl

/-- But for RND, execute does the same from another position in the stream of draws (R218). -/
theorem exec_draws_comm {instr : Instr} (notRnd : ∀ x nn, instr ≠ .rnd x nn) (s : State) (d : Nat) :
    exec instr { s with draws := d } = setDraws d (exec instr s) := by
  cases instr with
  | rnd x nn => exact absurd rfl (notRnd x nn)
  | call nnn =>
    simp only [exec, execCall, pushPc_draws_comm]
    rfl
  | seImm _ _ | sneImm _ _ | seReg _ _ | sneReg _ _ =>
    exact congrArg Host.Outcome.next (skipIf_draws_comm _ s d)
  | skp _ | sknp _ => exact congrArg Host.Outcome.next (skipIf_draws_comm _ (popKey s).2 d)
  | ret =>
    by_cases empty : s.sp.val = 0 <;> simp [exec, execRet, popPc, empty, raise, setDraws, jumpTo]
  | drw _ _ _ | ldBVx _ | ldMemVx _ | ldVxMem _ | ldFVx _ =>
    refine ((apply_ite (setDraws d) _ _ _).trans ?_).symm
    rfl
  | ldVxK _ =>
    simp only [exec, execLdVxK, popKey]
    cases oldestKey s.kq <;> rfl
  | _ => rfl

theorem endCycle_draws_comm (instr : Instr) (u : State) (d : Nat) :
    endCycle instr { u with draws := d } = { endCycle instr u with draws := d } := by
  rw [endCycle_eq_endOfCycle, endCycle_eq_endOfCycle]
  rfl

theorem finishCycle_draws_comm (instr : Instr) (r : Result) (d : Nat) :
    finishCycle instr (setDraws d r) = setDraws d (finishCycle instr r) := by
  cases r with
  | next u => exact congrArg Host.Outcome.next (endCycle_draws_comm instr u d)
  | fault _ | refused _ => rfl

/-- Settles O20: the fetch and the decoder do not read the draws at all, and the end of the cycle carries them
along. -/
theorem onlyRndReadsTheEnvironment : Obligations.OnlyRndReadsTheEnvironment := by
  unfold Obligations.OnlyRndReadsTheEnvironment
  intro s instr d notRnd
  have execute := exec_draws_comm notRnd s d
  refine ⟨execute, fun decoded => ?_⟩
  have decoded' : decodedAt { s with draws := d } instr := decoded
  rw [step_of_decodedAt decoded', execute, finishCycle_draws_comm, ← step_of_decodedAt decoded]

end Sys2Proof.Machine
end

