-- ==== Sys2Proof/Proofs/Invariant.lean ====
section
/-! The invariant of CORE's states, from reset through completed cycles and the host's operations
(spec/10_state.md R31). -/

namespace Sys2Proof.Machine

open Sys2Proof.Claims Sys2Proof.Safety

/-! ### One execute step -/

/-- A jump, CALL or RET leaves `PC` at an address operand, at the sum of one and a byte, or at a stack entry. -/
theorem exec_jump_pc_bound {instr : Instr} {s u : State} (h : exec instr s = .next u) (hs : Inv s)
    (jump : isJumpCallOrReturn instr = true) : u.pc ≤ 0x10FE := by
  cases instr with
  | jp nnn | call nnn =>
    cases h
    rw [jumpTo_pc, absTarget]
    omega
  | jpV0 nnn =>
    cases h
    rw [jumpTo_pc, offsetTarget]
    omega
  | ret =>
    obtain ⟨nonempty, rfl⟩ := execRet_next h
    have := hs.stackBound ⟨s.sp.val - 1, by omega⟩
    rw [jumpTo_pc, retAdvance]
    omega
  | _ => cases jump

/-- Any other instruction adds at most a skip's 2 to `PC` in execute (R108). -/
theorem exec_pc_le {instr : Instr} {s u : State} (h : exec instr s = .next u)
    (notJump : isJumpCallOrReturn instr = false) : u.pc ≤ s.pc + 2 := by
  cases skip : isSkip instr with
  | false =>
    rw [(exec_frame h).pc notJump skip]
    omega
  | true =>
    obtain same | skipped := exec_skip_pc h skip <;> omega

/-- A CALL that was fetched pushes an address from which a fetch is possible (R101, R211). -/
theorem exec_stack_bound {instr : Instr} {s u : State} (h : exec instr s = .next u) (hs : Inv s)
    (fetched : s.pc ≤ 0xFFE) (k : Fin 16) : u.stack.get k ≤ 0xFFE := by
  cases instr with
  | call nnn =>
    cases h
    exact pushPc_stack_bound s _ fetched hs.stackBound k
  | _ =>
    rw [(exec_frame h).stack nofun]
    exact hs.stackBound k

theorem exec_mem_wf {instr : Instr} {s u : State} (h : exec instr s = .next u) (hs : Inv s) :
    u.mem.wf = true := by
  cases instr with
  | ldBVx _ | ldMemVx _ =>
    obtain ⟨-, rfl⟩ := next_of_guard h
    exact Memory.writeBytes_wf _ _ hs.memCanonical
  | _ =>
    rw [(exec_frame h).mem (fun _ => ⟨nofun, nofun⟩)]
    exact hs.memCanonical

theorem length_dropOldestKey_le (q : List Key) : (dropOldestKey q).length ≤ q.length := by
  rw [dropOldestKey, List.length_tail]
  omega

/-- No instruction makes the key queue longer (R172). -/
theorem exec_kq_length_le {instr : Instr} {s u : State} (h : exec instr s = .next u) :
    u.kq.length ≤ s.kq.length := by
  have dropped := length_dropOldestKey_le s.kq
  cases instr with
  | skp _ | sknp _ =>
    cases h
    simpa using dropped
  | ldVxK _ =>
    obtain ⟨k, -, rfl⟩ | ⟨-, rfl⟩ := execLdVxK_next h <;> simpa using dropped
  | _ => rw [(exec_frame h).kq (fun _ => ⟨nofun, nofun, nofun⟩)]

/-! ### One cycle -/

/-- Settles O21: `PC` is a jump's target or at most 4 past an address that was fetched from, and every other
bound is that of the execute step. -/
theorem everyCycleKeepsInv : Obligations.EveryCycleKeepsInv := by
  unfold Obligations.EveryCycleKeepsInv
  intro s t hs completed
  obtain ⟨instr, u, decoded, executed, rfl⟩ := decodedAt_of_step_next completed
  have fetched : s.pc ≤ 4094 := decoded.1
  constructor
  · cases jump : isJumpCallOrReturn instr with
    | true =>
      rw [endCycle_pc, setsPc_eq_isJumpCallOrReturn, jump]
      exact exec_jump_pc_bound executed hs jump
    | false =>
      have := exec_pc_le executed jump
      rw [endCycle_pc_of_not_jump jump]
      split <;> omega
  · rw [endCycle_stack]
    exact exec_stack_bound executed hs fetched
  · rw [endCycle_mem]
    exact exec_mem_wf executed hs
  · rw [endCycle_kq]
    exact (exec_kq_length_le executed).trans hs.queueBound

/-! ### Reachable states -/

/-- `init` leaves the reset state but for the count of draws, which the invariant does not speak of
(R230, R281). -/
theorem hostInit_inv (s : State) : Inv (hostInit s) where
  pcBound := by simp [hostInit, State.reset]
  stackBound k := by simp [hostInit, State.reset, Vector.get_eq_getElem]
  memCanonical := rfl
  queueBound := Nat.zero_le _

theorem hostLoadProgram_inv (image : List Byte) {s : State} (hs : Inv s) :
    Inv (hostLoadProgram image s).2 := by
  unfold hostLoadProgram
  split
  · exact { hs with memCanonical := Memory.writeBytes_wf _ _ hs.memCanonical }
  · exact hs

theorem length_pushKey_le {cap : Nat} {q : List Key} (h : q.length ≤ cap) (e : Option Key) :
    (pushKey cap q e).length ≤ cap := by
  unfold pushKey
  split
  · exact h
  · split
    · rw [List.length_append, List.length_singleton]
      omega
    · exact h

theorem hostKeyPush_inv (e : Option Key) {s : State} (hs : Inv s) : Inv (hostKeyPush e s) :=
  { hs with queueBound := length_pushKey_le hs.queueBound e }

theorem hostKeyPop_inv {s : State} (hs : Inv s) : Inv (hostKeyPop s).2 :=
  { hs with queueBound := (length_dropOldestKey_le s.kq).trans hs.queueBound }

/-- Settles O22: reset is `init` of the reset state. -/
theorem resetMeetsInv : Obligations.ResetMeetsInv := hostInit_inv State.reset

theorem inv_of_reachable {s : State} (h : Reachable s) : Inv s := by
  induction h with
  | reset => exact resetMeetsInv
  | init _ _ => exact hostInit_inv _
  | load image _ ih => exact hostLoadProgram_inv image ih
  | cycle _ completed ih => exact everyCycleKeepsInv _ _ ih completed
  | push e _ ih => exact hostKeyPush_inv e ih
  | pop _ ih => exact hostKeyPop_inv ih

/-- Settles O23: the types bound what the invariant does not, and a completed cycle had fetched. -/
theorem reachableStatesAreInRange : Obligations.ReachableStatesAreInRange := by
  unfold Obligations.ReachableStatesAreInRange
  intro s reachable
  have inv := inv_of_reachable reachable
  have started (t : State) (completed : step s = .next t) : s.pc ≤ 4094 := by
    obtain ⟨_, _, decoded, -, -⟩ := decodedAt_of_step_next completed
    exact decoded.1
  exact ⟨by omega, by omega, fun x => by omega, by omega, by omega, inv.queueBound, fun k _ => by omega,
    inv.pcBound, inv.memCanonical, started⟩

end Sys2Proof.Machine
end

