-- ==== Sys2Proof/Proofs/Keys.lean ====
section
/-! The instructions that look at the key queue, the host's pushes, and the wait flag
(spec/45_input.md). -/

namespace Sys2Proof.Machine

open Sys2Proof.Claims

/-! ### Comparing and storing a key -/

/-- A key is zero-extended into a register (R178). -/
@[simp] theorem keyByte_toNat (k : Key) : (keyByte k).toNat = k.toNat := by
  rw [keyByte, BitVec.toNat_setWidth]
  omega

theorem matchKey_some (k : Key) (v : Byte) : matchKey (some k) v = decide (k.toNat = v.toNat) := by
  rw [matchKey, ← keyByte_toNat, Bool.eq_iff_iff, beq_iff_eq, decide_eq_true_iff, BitVec.toNat_inj]

/-- A skip in execute adds 2 to `PC` or does nothing (R108). -/
theorem skipIf_eq (c : Bool) (s : State) : skipIf c s = { s with pc := if c then s.pc + 2 else s.pc } := by
  cases c <;> rfl

/-! ### SKP and SKNP -/

theorem exec_skp (x : RegId) (s : State) :
    exec (.skp x) s = .next (skipIf (matchKey (popKey s).1 (getReg s x)) (popKey s).2) := rfl

theorem exec_sknp (x : RegId) (s : State) :
    exec (.sknp x) s = .next (skipIf (!matchKey (popKey s).1 (getReg s x)) (popKey s).2) := rfl

/-- Settles O51: the popped key is compared, and "none" matches no byte. -/
theorem skipIfKeyConsumesTheOldest : Obligations.SkipIfKeyConsumesTheOldest := by
  unfold Obligations.SkipIfKeyConsumesTheOldest
  intro s x
  constructor
  · intro empty
    rw [exec_skp, popKey_of_empty empty]
    rfl
  · intro k q nonempty
    rw [exec_skp, popKey_of_cons nonempty, matchKey_some, skipIf_eq]
    simp

/-- Settles O52: the comparison of SKP, negated, so that an empty queue skips. -/
theorem skipIfNotKeyConsumesTheOldest : Obligations.SkipIfNotKeyConsumesTheOldest := by
  unfold Obligations.SkipIfNotKeyConsumesTheOldest
  intro s x
  constructor
  · intro empty
    rw [exec_sknp, popKey_of_empty empty]
    rfl
  · intro k q nonempty
    rw [exec_sknp, popKey_of_cons nonempty, matchKey_some, skipIf_eq]
    simp

/-! ### LD Vx, K -/

theorem exec_ldVxK_of_empty (x : RegId) {s : State} (empty : s.kq = []) :
    exec (.ldVxK x) s = .next { s with wait := true } := by
  rw [exec, execLdVxK, popKey_of_empty empty]
  rfl

theorem exec_ldVxK_of_cons (x : RegId) {s : State} {k : Key} {q : List Key} (nonempty : s.kq = k :: q) :
    exec (.ldVxK x) s = .next (setWait (setReg { s with kq := q } x (keyByte k)) false) := by
  rw [exec, execLdVxK, popKey_of_cons nonempty]

/-- The cycle of a wait that found no key holds `PC` and ticks (R178, R216). -/
theorem step_ldVxK_of_empty {x : RegId} {s : State} (decoded : decodedAt s (.ldVxK x)) (empty : s.kq = []) :
    step s = .next { s with wait := true, dt := tickTimer s.dt, st := tickTimer s.st } := by
  rw [step_of_exec_next decoded (exec_ldVxK_of_empty x empty)]
  rfl

/-- The cycle of a wait that found a key advances and ticks (R178, R216). -/
theorem step_ldVxK_of_cons {x : RegId} {s : State} {k : Key} {q : List Key} (decoded : decodedAt s (.ldVxK x))
    (nonempty : s.kq = k :: q) :
    step s = .next { setReg s x (keyByte k) with
      kq := q, wait := false, pc := s.pc + 2, dt := tickTimer s.dt, st := tickTimer s.st } := by
  rw [step_of_exec_next decoded (exec_ldVxK_of_cons x nonempty)]
  rfl

/-- Settles O53: the two branches of the wait, each in execute and over its cycle. -/
theorem waitForKeyStoresOrWaits : Obligations.WaitForKeyStoresOrWaits := by
  unfold Obligations.WaitForKeyStoresOrWaits
  intro s x
  constructor
  · intro empty
    refine ⟨exec_ldVxK_of_empty x empty, fun decoded => ?_⟩
    exact ⟨_, step_ldVxK_of_empty decoded empty, rfl, tickTimer_toNat _, tickTimer_toNat _⟩
  · intro k q nonempty
    refine ⟨_, exec_ldVxK_of_cons x nonempty, rfl, fun _ => rfl, ?_, ?_, fun decoded => ?_⟩
    · simp
    · intro j other
      simp [other]
      rfl
    · exact ⟨_, step_ldVxK_of_cons decoded nonempty, rfl, tickTimer_toNat _, tickTimer_toNat _⟩

/-! ### Pushes -/

theorem pushKey_of_room {cap : Nat} {q : List Key} (room : q.length < cap) (k : Key) :
    pushKey cap q (some k) = q ++ [k] := by
  rw [pushKey, if_pos room]

theorem pushKey_of_full {cap : Nat} {q : List Key} (full : cap ≤ q.length) (k : Key) :
    pushKey cap q (some k) = q := by
  rw [pushKey, if_neg (Nat.not_lt.mpr full)]

/-- Settles O55, by induction on the keys pushed: each finds room and goes to the end. -/
theorem pushesAppendInOrder : Obligations.PushesAppendInOrder := by
  unfold Obligations.PushesAppendInOrder
  refine ⟨?_, fun _ => rfl, ?_⟩
  · intro s keys room
    induction keys generalizing s with
    | nil => rw [List.foldl_nil, List.append_nil]
    | cons k keys ih =>
      rw [List.length_cons] at room
      have first : hostKeyPush (some k) s = { s with kq := s.kq ++ [k] } := by
        rw [hostKeyPush, pushKey_of_room (by omega)]
      have rest : (s.kq ++ [k]).length + keys.length ≤ Config.keyqCap := by
        rw [List.length_append, List.length_singleton]
        omega
      rw [List.foldl_cons, first, ih _ rest, List.append_assoc, List.singleton_append]
  · intro s k full
    rw [hostKeyPush, pushKey_of_full full]

/-! ### The wait flag -/

/-- Settles O18: the rows of R179's table, FX0A from its two cycles and every other instruction from its
frame. -/
theorem waitFlagStateMachine : Obligations.WaitFlagStateMachine := by
  unfold Obligations.WaitFlagStateMachine
  refine ⟨?_, ?_, ?_, ?_, fun _ => rfl⟩
  · intro s t x k q decoded nonempty completed
    rw [step_ldVxK_of_cons decoded nonempty] at completed
    cases completed
    have stored : getReg (setReg s x (keyByte k)) x = keyByte k := by simp
    exact ⟨rfl, (congrArg BitVec.toNat stored).trans (keyByte_toNat k), rfl, rfl⟩
  · intro s t x decoded empty completed
    rw [step_ldVxK_of_empty decoded empty] at completed
    cases completed
    exact ⟨rfl, rfl, empty, rfl, tickTimer_toNat _, tickTimer_toNat _⟩
  · intro s t instr decoded notWait completed
    obtain ⟨u, executed, rfl⟩ := step_next_of_decodedAt decoded completed
    rw [endCycle_wait, (exec_frame executed).wait notWait]
  · intro s k
    exact ⟨rfl, fun room => pushKey_of_room room k⟩

end Sys2Proof.Machine
end

