-- ==== Sys2Proof/Proofs/Control.lean ====
section
/-! Jumps, calls, returns and the comparing skips, in execute and over their cycles
(spec/41_control_transfer.md). -/

namespace Sys2Proof.Machine

open Sys2Proof.Claims

/-! ### Jumps -/

/-- Settles O26: no advance follows the jump, and from its target 4095 no fetch is possible. -/
theorem jumpSetsPcWithoutAdvance : Obligations.JumpSetsPcWithoutAdvance := by
  unfold Obligations.JumpSetsPcWithoutAdvance
  intro s nnn
  refine ⟨rfl, fun decoded => ⟨_, step_jp decoded, rfl, tickTimer_toNat _, tickTimer_toNat _, ?_⟩⟩
  rintro rfl
  exact step_of_fetch_none (fetch_of_ge (Nat.le_refl 4096))

/-- Settles O27: the sum goes into `PC` as a natural number, and no advance follows. -/
theorem jumpWithOffsetIsNotReduced : Obligations.JumpWithOffsetIsNotReduced := by
  unfold Obligations.JumpWithOffsetIsNotReduced
  intro s nnn
  have executed : exec (.jpV0 nnn) s = .next (jumpTo s (nnn.toNat + (getReg s 0).toNat)) := rfl
  refine ⟨executed, fun decoded => ⟨_, step_of_exec_next decoded executed, ?_, ?_⟩⟩
  · simp [setsPc]
  · simp

/-! ### CALL -/

theorem exec_call (nnn : Addr) (s : State) : exec (.call nnn) s = .next (jumpTo (pushPc s) nnn.toNat) := rfl

/-- A push changes the stack and `SP` only (R101). -/
theorem pushPc_eq (s : State) : pushPc s = { s with stack := (pushPc s).stack, sp := (pushPc s).sp } := by
  unfold pushPc
  split <;> rfl

theorem sp_eq_sixteen_iff {s : State} : s.sp = 16 ↔ s.sp.val = 16 := Fin.ext_iff

theorem pushPc_sp_of_room {s : State} (room : s.sp ≠ 16) : (pushPc s).sp.val = s.sp.val + 1 := by
  rw [pushPc_sp_val, if_neg (mt sp_eq_sixteen_iff.mpr room)]

theorem pushPc_sp_of_full {s : State} (full : s.sp = 16) : (pushPc s).sp = 16 := by
  rw [Fin.ext_iff, pushPc_sp_val, if_pos (sp_eq_sixteen_iff.mp full)]
  rfl

/-- Settles O28: the push of a stack with room and of a full one, and the jump that follows both. -/
theorem callPushesItsOwnAddress : Obligations.CallPushesItsOwnAddress := by
  unfold Obligations.CallPushesItsOwnAddress
  intro s nnn
  refine ⟨_, exec_call nnn s, rfl, ?_, fun a => by simp, ?_, ?_, ?_⟩
  · exact congrArg (jumpTo · nnn.toNat) (pushPc_eq s)
  · intro room
    refine ⟨pushPc_sp_of_room room, by rw [execStatus_call, if_neg room], fun k => ?_⟩
    exact get_pushPc_stack s (mt sp_eq_sixteen_iff.mpr room) k
  · intro full
    refine ⟨pushPc_sp_of_full full, by rw [execStatus_call, if_pos full], fun k => ?_⟩
    exact get_pushPc_stack_full s (sp_eq_sixteen_iff.mp full) k
  · intro decoded
    have completed := step_of_exec_next decoded (exec_call nnn s)
    refine ⟨_, completed, ?_, ?_⟩
    · rw [hostCycle_of_next completed, reportedStatus_of_decodedAt decoded, execStatus_call]
    · simp [setsPc]

/-! ### RET -/

theorem exec_ret_of_empty {s : State} (empty : s.sp = 0) : exec .ret s = .fault .noCall := by
  rw [exec, execRet, popPc_empty s (congrArg Fin.val empty), raise]

/-- A pop of a stack with `n` entries below the top one. -/
theorem popPc_of_entry {s : State} {n : Fin 16} (top : s.sp.val = n.val + 1) :
    popPc s = some (s.stack.get n, { s with sp := ⟨n.val, by omega⟩ }) := by
  have nonempty : s.sp.val ≠ 0 := by omega
  have below : s.sp.val - 1 = n.val := by omega
  simp [popPc_some s nonempty, below]

/-- A return with `k` entries below the top one (R102). -/
theorem exec_ret_of_entry {s : State} {k : Fin 16} (top : s.sp.val = k.val + 1) :
    exec .ret s = .next { s with pc := s.stack.get k, sp := ⟨k.val, by omega⟩ } := by
  rw [exec, execRet, popPc_of_entry top]
  rfl

/-- The cycle of a return does not advance (R102, `RET_ADVANCE`). -/
theorem step_ret_of_entry {s : State} {k : Fin 16} (decoded : decodedAt s .ret) (top : s.sp.val = k.val + 1) :
    step s = .next { s with
      pc := s.stack.get k, sp := ⟨k.val, by omega⟩, dt := tickTimer s.dt, st := tickTimer s.st } := by
  rw [step_of_exec_next decoded (exec_ret_of_entry top)]
  rfl

/-- Settles O29, on an empty stack and on one with a top entry. -/
theorem returnPopsIntoPc : Obligations.ReturnPopsIntoPc := by
  unfold Obligations.ReturnPopsIntoPc
  intro s
  refine ⟨exec_ret_of_empty, fun k top => ?_⟩
  refine ⟨_, exec_ret_of_entry top, rfl, rfl, fun _ => rfl, fun decoded => ?_⟩
  exact ⟨_, step_ret_of_entry decoded top, rfl, rfl, rfl⟩

/-- Settles O30: the CALL leaves memory alone and its own address on top, so the RET at its target is executed
next and pops that address. -/
theorem returnLandsOnItsCall : Obligations.ReturnLandsOnItsCall := by
  unfold Obligations.ReturnLandsOnItsCall
  intro s nnn callHere room inMemory retThere
  have called := step_of_exec_next callHere (exec_call nnn s)
  set t := endCycle (.call nnn) (jumpTo (pushPc s) nnn.toNat) with ht
  have pc : t.pc = nnn.toNat := by simp [ht, setsPc]
  have mem : t.mem = s.mem := by simp [ht]
  have top : t.sp.val = s.sp.val + 1 := by simp [ht, pushPc_sp_of_room room]
  have notFull : s.sp.val < 16 := by omega
  have entry : t.stack.get ⟨s.sp.val, notFull⟩ = s.pc := by
    simp [ht, get_pushPc_stack s notFull.ne]
  have retHere : decodedAt t .ret := by
    rw [decodedAt, pc, mem]
    exact ⟨inMemory, retThere⟩
  have returned := step_ret_of_entry (k := ⟨s.sp.val, notFull⟩) retHere top
  refine ⟨t, _, called, retHere, returned, entry, rfl, ?_⟩
  obtain ⟨fetched, decodes⟩ := callHere
  simp only [decodedAt, entry, mem]
  exact ⟨fetched, decodes⟩

/-! ### Nested calls -/

/-- `n` is the first entry not in use. -/
theorem pushPc_sp_of_free {s : State} {n : Fin 16} (free : s.sp.val = n.val) :
    (pushPc s).sp.val = n.val + 1 := by
  rw [pushPc_sp_val, if_neg (by omega), free]

/-- A push onto a stack with room: the entry in use above all others is the `PC` pushed. -/
theorem get_pushPc_stack_top {s : State} {n : Fin 16} (free : s.sp.val = n.val) :
    (pushPc s).stack.get n = s.pc := by
  rw [get_pushPc_stack s (by omega), if_pos free.symm]

theorem get_pushPc_stack_below {s : State} {n k : Fin 16} (free : s.sp.val = n.val) (below : k.val < n.val) :
    (pushPc s).stack.get k = s.stack.get k := by
  rw [get_pushPc_stack s (by omega), if_neg (by omega)]

/-- A pop after a push gives the pushed `PC` back and moves `SP` back (R101, R102). -/
theorem popPc_pushPc {s : State} {n : Fin 16} (free : s.sp.val = n.val) :
    popPc (pushPc s) = some (s.pc, { s with stack := (pushPc s).stack }) := by
  have top : (pushPc s).sp.val = n.val + 1 := pushPc_sp_of_free free
  have back : (⟨n.val, by omega⟩ : Fin 17) = s.sp := Fin.ext free.symm
  rw [popPc_of_entry top, get_pushPc_stack_top free, back, pushPc_eq]

/-- The first of several pops (R102). -/
theorem popAll_succ {n : Nat} {s t : State} {pc : Nat} (first : popPc s = some (pc, t)) :
    popAll (n + 1) s = (popAll n t).map (Prod.map (pc :: ·) id) := by
  cases rest : popAll n t <;> simp [popAll, first, rest, Prod.map]

/-- The last of several pops: what it answers goes to the end, and an empty stack answers nothing (R102). -/
theorem popAll_succ_last {n : Nat} {s t : State} {pcs : List Nat} (popped : popAll n s = some (pcs, t)) :
    popAll (n + 1) s = (popPc t).map (Prod.map (pcs ++ [·]) id) := by
  induction n generalizing s pcs with
  | zero =>
    cases popped
    cases last : popPc t <;> simp [popAll, last, Prod.map]
  | succ n ih =>
    cases first : popPc s with
    | none => simp [popAll, first] at popped
    | some entry =>
      rw [popAll_succ first] at popped ⊢
      cases rest : popAll n entry.2 with
      | none => simp [rest] at popped
      | some popped' =>
        rw [rest] at popped
        cases popped
        rw [ih rest, Option.map_map]
        rfl

/-- The last address pushed is the first popped: the addresses of the outer calls lie below and are left
alone. -/
theorem popAll_pushAll (pcs : List Nat) (s : State) (room : s.sp.val + pcs.length ≤ 16) :
    ∃ t, popAll pcs.length (pushAll s pcs) = some (pcs.reverse, t) ∧ t.sp = s.sp ∧
      ∀ k : Fin 16, k.val < s.sp.val → t.stack.get k = s.stack.get k := by
  induction pcs generalizing s with
  | nil => exact ⟨s, rfl, rfl, fun _ _ => rfl⟩
  | cons pc pcs ih =>
    rw [List.length_cons] at room
    obtain ⟨n, free⟩ : ∃ n : Fin 16, s.sp.val = n.val := ⟨⟨s.sp.val, by omega⟩, rfl⟩
    have sp : (pushPc { s with pc := pc }).sp.val = n.val + 1 := pushPc_sp_of_free free
    obtain ⟨t, popped, back, kept⟩ := ih (pushPc { s with pc := pc }) (by omega)
    rw [sp] at kept
    have top : t.stack.get n = pc := (kept n (by omega)).trans (get_pushPc_stack_top free)
    have last : popPc t = some (pc, { t with sp := ⟨n.val, by omega⟩ }) := by
      rw [popPc_of_entry (back ▸ sp), top]
    refine ⟨{ t with sp := ⟨n.val, by omega⟩ }, ?_, Fin.ext free.symm, fun k below => ?_⟩
    · rw [List.length_cons, pushAll, popAll_succ_last popped, last, List.reverse_cons]
      rfl
    · have below' : k.val < n.val := free ▸ below
      exact (kept k (by omega)).trans (get_pushPc_stack_below free below')

/-- Settles O31: the law of nested pushes and pops, and that of one of each. -/
theorem popAfterPushRestores : Obligations.PopAfterPushRestores := by
  unfold Obligations.PopAfterPushRestores
  constructor
  · intro s pcs room
    obtain ⟨t, popped, back, kept⟩ := popAll_pushAll pcs s room
    refine ⟨t, popped, back, kept, fun empty => ?_⟩
    have nothing : popPc t = none := popPc_empty t (by rw [back, empty]; rfl)
    rw [popAll_succ_last popped, nothing, Option.map_none]
  · intro s notFull
    have room : s.sp.val < 16 := by
      have := mt sp_eq_sixteen_iff.mpr notFull
      omega
    obtain ⟨n, free⟩ : ∃ n : Fin 16, s.sp.val = n.val := ⟨⟨s.sp.val, room⟩, rfl⟩
    refine ⟨_, popPc_pushPc free, rfl, fun k below => ?_, rfl⟩
    exact get_pushPc_stack_below free (free ▸ below)

/-! ### The comparing skips -/

/-- Settles O32: each comparison of bytes is one of their values. -/
theorem skipsCompareAndSkip : Obligations.SkipsCompareAndSkip := by
  unfold Obligations.SkipsCompareAndSkip
  intro s x y nn
  refine ⟨?_, ?_, ?_, ?_⟩
  all_goals
    simp only [exec, execSeImm, execSneImm, execSeReg, execSneReg, skipIf_eq, BitVec.toNat_inj]
    simp

end Sys2Proof.Machine
end

