-- ==== Sys2Proof/Proofs/Registers.lean ====
section
/-! The instructions that write one register, and those that write a result and then the flag, in the numbers
of their bytes; and the timer instructions (spec/42_register_arithmetic.md, spec/46_timers.md). -/

namespace Sys2Proof.Machine

open Sys2Proof.Claims

/-! ### What is left alone -/

theorem setReg_onlyRegs (s : State) (x : RegId) (v : Byte) : onlyRegs s (setReg s x v) [x] := by
  refine ⟨rfl, fun _ => rfl, fun k other => ?_⟩
  rw [getReg_setReg, if_neg (by simpa using other)]

theorem setRegThenFlag_onlyRegs (s : State) (x : RegId) (v f : Byte) :
    onlyRegs s (setRegThenFlag s x v f) [x, 15] := by
  refine ⟨rfl, fun _ => rfl, fun k other => ?_⟩
  simp only [List.mem_cons, List.not_mem_nil, or_false, not_or] at other
  rw [getReg_setRegThenFlag, if_neg other.2, if_neg other.1]

/-! ### One register -/

theorem getReg_setReg_self (s : State) (x : RegId) (v : Byte) : getReg (setReg s x v) x = v := by simp

/-- Settles O33: the register written, in numbers. -/
theorem loadsAddImmediateAndLogic : Obligations.LoadsAddImmediateAndLogic := by
  unfold Obligations.LoadsAddImmediateAndLogic
  intro s x y nn
  refine ⟨⟨_, rfl, ?_, setReg_onlyRegs s x _⟩, ⟨_, rfl, ?_, setReg_onlyRegs s x _⟩,
    ⟨_, rfl, ?_, setReg_onlyRegs s x _⟩, ⟨_, rfl, ?_, setReg_onlyRegs s x _⟩,
    ⟨_, rfl, ?_, setReg_onlyRegs s x _⟩, ⟨_, rfl, ?_, setReg_onlyRegs s x _⟩⟩
  all_goals rw [getReg_setReg_self]
  · rw [BitVec.toNat_add]
  · rw [BitVec.toNat_or]
  · rw [BitVec.toNat_and]
  · rw [BitVec.toNat_xor]

/-- Settles O37: the masked byte has no bit outside the mask. -/
theorem randomByteIsMasked : Obligations.RandomByteIsMasked := by
  unfold Obligations.RandomByteIsMasked
  intro s x nn
  have written : getReg (setReg (drawByte s).2 x ((drawByte s).1 &&& nn)) x =
      Config.randomByte s.draws &&& nn :=
    getReg_setReg_self _ x _
  refine ⟨_, rfl, written, ?_, rfl, fun _ => rfl, fun k other => ?_⟩
  · rw [written, BitVec.and_assoc]
    simp
  · rw [getReg_setReg, if_neg other, getReg_drawByte]

/-! ### A result, then the flag -/

@[simp] theorem flagByte_toNat (b : Bool) : (flagByte b).toNat = if b then 1 else 0 := by
  cases b <;> rfl

theorem carryOut_toNat (a b : Byte) : (carryOut a b).toNat = if 255 < a.toNat + b.toNat then 1 else 0 := by
  simp [carryOut]

theorem noBorrow_toNat (a b : Byte) : (noBorrow a b).toNat = if a.toNat < b.toNat then 0 else 1 := by
  by_cases borrow : a.toNat < b.toNat
  · simp [noBorrow, borrow]
  · simp [noBorrow, borrow]

/-- A bit of a byte as a flag is that binary digit of its number. -/
theorem flagByte_getLsbD_toNat (a : Byte) (i : Nat) :
    (flagByte (a.getLsbD i)).toNat = a.toNat / 2 ^ i % 2 := by
  rw [flagByte_toNat, BitVec.getLsbD, Nat.testBit_eq_decide_div_mod_eq]
  by_cases set : a.toNat / 2 ^ i % 2 = 1
  · simp [set]
  · simp [set]; omega

theorem shiftedOutRight_toNat (a : Byte) : (shiftedOutRight a).toNat = a.toNat % 2 := by
  rw [shiftedOutRight, flagByte_getLsbD_toNat, Nat.pow_zero, Nat.div_one]

theorem shiftedOutLeft_toNat (a : Byte) : (shiftedOutLeft a).toNat = a.toNat / 128 := by
  rw [shiftedOutLeft, flagByte_getLsbD_toNat]
  omega

theorem getReg_setRegThenFlag_flag (s : State) (x : RegId) (v f : Byte) :
    getReg (setRegThenFlag s x v f) 15 = f := by simp

theorem getReg_setRegThenFlag_result {x : RegId} (notVf : x ≠ 15) (s : State) (v f : Byte) :
    getReg (setRegThenFlag s x v f) x = v := by simp [notVf]

/-- Settles O34: sum, then carry. -/
theorem addWrapsThenWritesCarry : Obligations.AddWrapsThenWritesCarry := by
  unfold Obligations.AddWrapsThenWritesCarry
  intro s x y
  refine ⟨_, rfl, fun notVf => ?_, ?_, setRegThenFlag_onlyRegs s x _ _⟩
  · rw [getReg_setRegThenFlag_result notVf, BitVec.toNat_add]
  · rw [getReg_setRegThenFlag_flag, carryOut_toNat]

theorem sub_toNat (a b : Byte) : (a - b).toNat = (a.toNat + 256 - b.toNat) % 256 := by
  rw [BitVec.toNat_sub]
  omega

/-- Settles O35: difference, then not-borrow, in both orders. -/
theorem subtractionsWrapThenWriteNoBorrow : Obligations.SubtractionsWrapThenWriteNoBorrow := by
  unfold Obligations.SubtractionsWrapThenWriteNoBorrow
  intro s x y
  refine ⟨⟨_, rfl, fun notVf => ?_, ?_, setRegThenFlag_onlyRegs s x _ _⟩,
    ⟨_, rfl, fun notVf => ?_, ?_, setRegThenFlag_onlyRegs s x _ _⟩⟩
  · rw [getReg_setRegThenFlag_result notVf, sub_toNat]
  · rw [getReg_setRegThenFlag_flag, noBorrow_toNat]
  · rw [getReg_setRegThenFlag_result notVf, sub_toNat]
  · rw [getReg_setRegThenFlag_flag, noBorrow_toNat]

/-- Settles O36: half or double, then the bit shifted out. -/
theorem shiftsWriteTheBitShiftedOut : Obligations.ShiftsWriteTheBitShiftedOut := by
  unfold Obligations.ShiftsWriteTheBitShiftedOut
  intro s x y
  refine ⟨⟨_, rfl, fun notVf => ?_, ?_, setRegThenFlag_onlyRegs s x _ _⟩,
    ⟨_, rfl, fun notVf => ?_, ?_, setRegThenFlag_onlyRegs s x _ _⟩⟩
  · rw [getReg_setRegThenFlag_result notVf, BitVec.toNat_ushiftRight, Nat.shiftRight_eq_div_pow, Nat.pow_one]
  · rw [getReg_setRegThenFlag_flag, shiftedOutRight_toNat]
  · rw [getReg_setRegThenFlag_result notVf, BitVec.toNat_shiftLeft, Nat.shiftLeft_eq, Nat.pow_one]
  · rw [getReg_setRegThenFlag_flag, shiftedOutLeft_toNat]

/-! ### Timers -/

/-- Settles O56: execute reads or writes the timer, and the tick comes after it. -/
theorem timerInstructionsReadAndWrite : Obligations.TimerInstructionsReadAndWrite := by
  unfold Obligations.TimerInstructionsReadAndWrite
  intro s x
  refine ⟨⟨_, rfl, getReg_setReg_self s x _, setReg_onlyRegs s x _, fun decoded => ?_⟩,
    ⟨rfl, fun decoded => ?_⟩, ⟨rfl, fun decoded => ?_⟩⟩
  · refine ⟨_, step_of_exec_next decoded rfl, ?_, ?_⟩
    · rw [getReg_endCycle, getReg_setReg_self]
    · rw [endCycle_dt, tickTimer_toNat, setReg_dt]
  · exact ⟨_, step_of_exec_next decoded rfl, by rw [endCycle_dt, tickTimer_toNat, setDelay_dt]⟩
  · exact ⟨_, step_of_exec_next decoded rfl, by rw [endCycle_st, tickTimer_toNat, setSound_st]⟩

end Sys2Proof.Machine
end

