-- ==== Sys2Proof/Proofs/IndexMemory.lean ====
section
/-! The index register, the stores and loads, and the glyph lookup (spec/43_memory_index.md,
spec/47_glyph_lookup.md, spec/20_memory.md R51). -/

namespace Sys2Proof.Machine

open Sys2Proof.Claims

/-! ### The index register -/

/-- Settles O38: the operand has the 12 bits of `I`. -/
theorem setIndexStoresTheAddress : Obligations.SetIndexStoresTheAddress := by
  unfold Obligations.SetIndexStoresTheAddress
  exact fun _ _ => rfl

/-- Settles O39: addition of 12-bit values. -/
theorem addToIndexWrapsAt4096 : Obligations.AddToIndexWrapsAt4096 := by
  unfold Obligations.AddToIndexWrapsAt4096
  intro s x
  refine ⟨_, rfl, rfl, fun _ => rfl, ?_⟩
  rw [setIndex_i, BitVec.toNat_add, BitVec.toNat_setWidth]
  omega

/-- Settles O40: five times a digit fits in `I`. -/
theorem glyphLookupIsFiveTimes : Obligations.GlyphLookupIsFiveTimes := by
  unfold Obligations.GlyphLookupIsFiveTimes
  intro s x
  constructor
  · intro digit
    refine ⟨_, if_neg (Nat.not_lt.mpr digit), rfl, fun _ => rfl, ?_⟩
    rw [setIndex_i, BitVec.toNat_ofNat]
    omega
  · exact fun above => if_pos above

/-! ### The range check -/

theorem rangeInMemory_succ_iff (s : State) (n : Nat) :
    rangeInMemory s (n + 1) = true ↔ effAddr s n < 4096 := by
  rw [rangeInMemory_iff, effAddr]
  simp

theorem not_rangeInMemory_succ {s : State} {n : Nat} (past : 4096 ≤ effAddr s n) :
    ¬ rangeInMemory s (n + 1) = true :=
  fun inMemory => Nat.not_lt.mpr past ((rangeInMemory_succ_iff s n).mp inMemory)

/-! ### Storing bytes from `I` -/

/-- A store from `I` changes the bytes it writes and nothing else (R42). -/
theorem store_onlyBytes {s : State} (canonical : s.mem.wf = true) (vs : List Byte) (base : Nat) :
    onlyBytes s (setMemory s (s.mem.writeBytes base vs)) base vs.length :=
  ⟨rfl, Memory.writeBytes_wf vs base canonical, fun a => Memory.read_writeBytes_outside vs base a canonical⟩

/-- The byte stored at the `k`-th address (R45). -/
theorem read_writeBytes_at {m : Memory} (canonical : m.wf = true) {vs : List Byte} {base k : Nat}
    (inMemory : base + vs.length ≤ 4096) (within : k < vs.length) :
    (m.writeBytes base vs).read (base + k) = vs.getD k 0 := by
  rw [Memory.read_writeBytes vs base _ canonical inMemory, if_pos (by omega), Nat.add_sub_cancel_left]

/-- Settles O41: the three digits, each less than ten, are bytes. -/
theorem bcdStoresThreeDigits : Obligations.BcdStoresThreeDigits := by
  unfold Obligations.BcdStoresThreeDigits
  intro s x
  constructor
  · intro canonical inMemory
    have range := (rangeInMemory_succ_iff s 2).mpr inMemory
    have digit (k : Nat) (within : k < 3) :
        (s.mem.writeBytes (effAddr s 0) (bcdDigits (getReg s x))).read (effAddr s k) =
          (bcdDigits (getReg s x)).getD k 0 :=
      read_writeBytes_at (vs := bcdDigits (getReg s x)) canonical inMemory within
    refine ⟨_, if_pos range, store_onlyBytes canonical (bcdDigits (getReg s x)) _, ?_, ?_, ?_⟩
    all_goals
      rw [setMemory_mem, digit _ (by decide)]
      simp only [bcdDigits, List.getD_cons_zero, List.getD_cons_succ, BitVec.toNat_ofNat]
      omega
  · exact fun past => if_neg (not_rangeInMemory_succ past)

/-! ### Block store and load -/

theorem exec_ldMemVx {s : State} {x : RegId} (inMemory : effAddr s x.val < 4096) :
    exec (.ldMemVx x) s = .next (setMemory s (s.mem.writeBytes (effAddr s 0) (regsUpTo s x))) :=
  if_pos ((rangeInMemory_succ_iff s x.val).mpr inMemory)

theorem exec_ldVxMem {s : State} {x : RegId} (inMemory : effAddr s x.val < 4096) :
    exec (.ldVxMem x) s = .next (setRegs s (loadRegs s.mem (effAddr s 0) x s.r)) :=
  if_pos ((rangeInMemory_succ_iff s x.val).mpr inMemory)

/-- A completed block store stored within memory (R43). -/
theorem effAddr_lt_of_exec_ldMemVx {s t : State} {x : RegId} (h : exec (.ldMemVx x) s = .next t) :
    effAddr s x.val < 4096 :=
  (rangeInMemory_succ_iff s x.val).mp (next_of_guard h).1

/-- Each register up to `R[x]` is in its byte after the block store (R144). -/
theorem read_blockStore {s t : State} {x k : RegId} (canonical : s.mem.wf = true)
    (stored : exec (.ldMemVx x) s = .next t) (named : k ≤ x) : t.mem.read (effAddr s k.val) = getReg s k := by
  have inMemory := effAddr_lt_of_exec_ldMemVx stored
  rw [exec_ldMemVx inMemory] at stored
  cases stored
  rw [setMemory_mem, ← getD_regsUpTo s x k named]
  refine read_writeBytes_at canonical ?_ ?_
  · rw [length_regsUpTo]
    exact inMemory
  · rw [length_regsUpTo]
    exact Nat.lt_succ_of_le named

/-- Settles O42: one byte for each register, from `I`. -/
theorem blockStoreCopiesRegisters : Obligations.BlockStoreCopiesRegisters := by
  unfold Obligations.BlockStoreCopiesRegisters
  intro s x
  constructor
  · intro canonical inMemory
    refine ⟨_, exec_ldMemVx inMemory, ?_, fun k => read_blockStore canonical (exec_ldMemVx inMemory)⟩
    rw [← length_regsUpTo s x]
    exact store_onlyBytes canonical _ _
  · exact fun past => if_neg (not_rangeInMemory_succ past)

/-- A register after the block load (R145). -/
theorem getReg_blockLoad (s : State) (x k : RegId) :
    getReg (setRegs s (loadRegs s.mem (effAddr s 0) x s.r)) k =
      if k ≤ x then s.mem.read (effAddr s k.val) else getReg s k := by
  rw [getReg_setRegs, get_loadRegs]
  rfl

theorem sameBytes_of_mem_eq {s t : State} (same : t.mem = s.mem) : sameBytes s t :=
  fun a => by rw [same]

/-- Settles O43: `get_loadRegs` register by register. -/
theorem blockLoadCopiesMemory : Obligations.BlockLoadCopiesMemory := by
  unfold Obligations.BlockLoadCopiesMemory
  intro s x
  constructor
  · intro inMemory
    exact ⟨_, exec_ldVxMem inMemory, rfl, sameBytes_of_mem_eq (setRegs_mem s _), getReg_blockLoad s x⟩
  · exact fun past => if_neg (not_rangeInMemory_succ past)

/-- Settles O44: the store left `I` as it was, so the load reads the bytes it wrote. -/
theorem blockLoadAfterBlockStore : Obligations.BlockLoadAfterBlockStore := by
  unfold Obligations.BlockLoadAfterBlockStore
  intro s t x between canonical stored
  have sameIndex : t.i = s.i := (exec_frame stored).i (fun _ _ => ⟨nofun, nofun, nofun⟩)
  have sameAddr (k : Nat) : effAddr { t with r := between } k = effAddr s k := by
    rw [effAddr, effAddr, sameIndex]
  have inMemory : effAddr { t with r := between } x.val < 4096 := by
    rw [sameAddr]
    exact effAddr_lt_of_exec_ldMemVx stored
  refine ⟨_, exec_ldVxMem inMemory, fun k named => ?_⟩
  rw [getReg_blockLoad, if_pos named, sameAddr]
  exact read_blockStore (t := t) canonical stored named

/-- Settles O45: the rest of the cycle leaves memory alone, and the fetch reads the two stored bytes. -/
theorem nextFetchSeesTheStore : Obligations.NextFetchSeesTheStore := by
  unfold Obligations.NextFetchSeesTheStore
  intro s t x k l canonical decoded completed namedK namedL first second inMemory
  obtain ⟨u, stored, rfl⟩ := step_next_of_decodedAt decoded completed
  rw [fetch_of_lt (by omega), second, first, endCycle_mem, read_blockStore canonical stored namedK,
    read_blockStore canonical stored namedL]

end Sys2Proof.Machine
end

