-- ==== Sys2Proof/Proofs/Host.lean ====
section
/-! What the host's `init`, `load_program`, pixel query and sound output give, and the first fetch after a load
(spec/49_host_interface.md, spec/70_reset_and_hazards.md). -/

namespace Sys2Proof.Machine

open Sys2Proof.Claims

/-! ### `init` -/

/-- `init` and a load leave `PC` at the entry offset, from which a fetch reads two bytes (R16, R211). -/
theorem fetch_of_pc_entry {s : State} (pc : s.pc = 0x200) :
    fetch s = some (wordOf (s.mem.read 0x200) (s.mem.read (0x200 + 1))) := by
  rw [fetch_of_lt (by omega), pc]

theorem hostInit_read_of_ge (s : State) {a : Nat} (above : 80 ≤ a) : (hostInit s).mem.read a = 0 :=
  if_neg (Nat.not_lt.mpr above)

/-- Settles O57: `init` is the reset state, field by field. -/
theorem initGivesTheResetState : Obligations.InitGivesTheResetState := by
  unfold Obligations.InitGivesTheResetState
  intro s
  refine ⟨rfl, fun _ => hostInit_read_of_ge s, fun _ below => if_pos below, fun x => ?_, rfl, rfl,
    fun k => ?_, rfl, rfl, rfl, fun j => ?_, rfl⟩
  all_goals simp [hostInit, State.reset, getReg, Vector.get_eq_getElem]

/-! ### `load_program` -/

theorem hostLoadProgram_of_fits {image : List Byte} (fits : image.length ≤ 3584) (s : State) :
    hostLoadProgram image s = (.ok, setMemory s (s.mem.writeBytes 0x200 image)) :=
  if_pos (decide_eq_true fits)

theorem hostLoadProgram_of_tooBig {image : List Byte} (tooBig : 3584 < image.length) (s : State) :
    hostLoadProgram image s = (.romTooBig, s) :=
  if_neg (by simpa [imageWellFormed] using tooBig)

/-- The bytes of a loaded program are in memory from 0x200 (R231). -/
theorem read_load {m : Memory} (canonical : m.wf = true) {image : List Byte} (fits : image.length ≤ 3584)
    {j : Nat} (within : j < image.length) : (m.writeBytes 0x200 image).read (0x200 + j) = image.getD j 0 :=
  read_writeBytes_at canonical (by omega) within

/-- Settles O58: a store of the image from 0x200, or nothing. -/
theorem loadProgramCopiesOrRefuses : Obligations.LoadProgramCopiesOrRefuses := by
  unfold Obligations.LoadProgramCopiesOrRefuses
  intro s image canonical
  constructor
  · intro fits
    exact ⟨_, hostLoadProgram_of_fits fits s, store_onlyBytes canonical image _,
      fun _ => read_load canonical fits⟩
  · exact fun tooBig => hostLoadProgram_of_tooBig tooBig s

/-! ### The boot sequence -/

/-- Settles O59: `init` puts `PC` where `load_program` puts the first byte; the zeros there otherwise are no
instruction. -/
theorem bootFetchesTheFirstWord : Obligations.BootFetchesTheFirstWord := by
  unfold Obligations.BootFetchesTheFirstWord
  constructor
  · intro s hi lo rest room
    have fits : (hi :: lo :: rest).length ≤ 3584 := by
      rw [List.length_cons, List.length_cons]
      omega
    have canonical : (hostInit s).mem.wf = true := rfl
    have first := read_load canonical fits (j := 0) (by simp)
    have second := read_load canonical fits (j := 1) (by simp)
    rw [hostLoadProgram_of_fits fits, fetch_of_pc_entry rfl]
    exact congrArg some (congrArg₂ wordOf first second)
  · intro s
    have fetched : fetch (hostInit s) = some (wordOf 0 0) := by
      rw [fetch_of_pc_entry rfl, hostInit_read_of_ge s (by decide : 80 ≤ 0x200),
        hostInit_read_of_ge s (by decide : 80 ≤ 0x200 + 1)]
    exact step_of_decode_error fetched rfl

/-! ### Pixels and sound -/

/-- A pixel is that of its coordinates wrapped into the grid (R151). -/
theorem getPixel_wrap (fb : Framebuffer) (x y : Nat) : getPixel fb x y = getPixel fb (x % 64) (y % 32) := by
  simp [getPixel, pixelByte, pixelBit]

/-- Settles O60: the coordinates of a pixel enter only through their remainders. -/
theorem pixelQueryWrapsAndSoundFollowsSt : Obligations.PixelQueryWrapsAndSoundFollowsSt := by
  unfold Obligations.PixelQueryWrapsAndSoundFollowsSt
  intro s
  refine ⟨getPixel_wrap s.fb, ?_, ?_⟩
  · intro x y j inRow inColumn place
    have byte : pixelByte x y = j := Fin.ext (by rw [place, pixelByte]; simp only; omega)
    have bit : pixelBit x = 7 - x % 8 := by rw [pixelBit]; omega
    rw [hostGetPixel, getPixel, byte, bit]
  · rw [hostSoundActive, bne_iff_ne, Ne, ← BitVec.toNat_inj, Nat.pos_iff_ne_zero]
    rfl

end Sys2Proof.Machine
end

