-- ==== Sys2Proof/Proofs/DrawRow.lean ====
section
/-! What drawing inverts, as a relation between two framebuffers that both levels of the row and the whole
sprite satisfy (spec/44_drawing.md R150 to R157). -/

namespace Sys2Proof.Machine

open Sys2Proof.Claims

/-! ### Pixels and the bits of bytes -/

/-- Every bit of every byte is a pixel (R150). -/
theorem exists_pixel (j : Fin 256) {i : Nat} (hi : i < 8) :
    ∃ px py, pixelByte px py = j ∧ pixelBit px = i := by
  refine ⟨j.val % 8 * 8 + (7 - i), j.val / 8, Fin.ext ?_, ?_⟩
  · simp only [pixelByte]
    omega
  · rw [pixelBit]
    omega

/-- A framebuffer is its pixels. -/
theorem framebuffer_ext {fb fb' : Framebuffer} (same : ∀ px py, getPixel fb px py = getPixel fb' px py) :
    fb = fb' := by
  apply Vector.ext
  intro j hj
  apply BitVec.eq_of_getLsbD_eq
  intro i hi
  obtain ⟨px, py, byte, bit⟩ := exists_pixel ⟨j, hj⟩ hi
  have pixel := same px py
  rw [getPixel, getPixel, byte, bit] at pixel
  exact pixel

/-! ### Inverting a set of pixels -/

/-- The second framebuffer is the first with exactly these pixels inverted. -/
def invertsExactly (fb fb' : Framebuffer) (covered : Nat → Nat → Prop) : Prop :=
  ∀ px py, (covered px py → getPixel fb' px py = !getPixel fb px py) ∧
    (¬ covered px py → getPixel fb' px py = getPixel fb px py)

/-- One of these pixels has this value. -/
def meets (fb : Framebuffer) (covered : Nat → Nat → Prop) (lit : Bool) : Prop :=
  ∃ px py, covered px py ∧ getPixel fb px py = lit

section
variable {fb fb' fb'' : Framebuffer} {A B : Nat → Nat → Prop}

theorem invertsExactly_congr (h : invertsExactly fb fb' A) (same : ∀ px py, B px py ↔ A px py) :
    invertsExactly fb fb' B := by
  intro px py
  rw [same]
  exact h px py

/-- Inverting disjoint sets one after the other inverts their union. -/
theorem invertsExactly_or (first : invertsExactly fb fb' A) (second : invertsExactly fb' fb'' B)
    (disjoint : ∀ px py, A px py → ¬ B px py) : invertsExactly fb fb'' (fun px py => A px py ∨ B px py) := by
  intro px py
  constructor
  · rintro (a | b)
    · rw [(second px py).2 (disjoint px py a), (first px py).1 a]
    · rw [(second px py).1 b, (first px py).2 fun a => disjoint px py a b]
  · intro neither
    rw [not_or] at neither
    rw [(second px py).2 neither.2, (first px py).2 neither.1]

theorem invertsExactly_unique (h : invertsExactly fb fb' A) (h' : invertsExactly fb fb'' A) : fb' = fb'' := by
  refine framebuffer_ext fun px py => ?_
  by_cases a : A px py
  · rw [(h px py).1 a, (h' px py).1 a]
  · rw [(h px py).2 a, (h' px py).2 a]

/-- Inverting the same set twice restores the framebuffer (R157). -/
theorem invertsExactly_twice (h : invertsExactly fb fb' A) (h' : invertsExactly fb' fb'' A) : fb'' = fb := by
  refine framebuffer_ext fun px py => ?_
  by_cases a : A px py
  · rw [(h' px py).1 a, (h px py).1 a, Bool.not_not]
  · rw [(h' px py).2 a, (h px py).2 a]

/-- After the inversion a set pixel of the set is one that was not set (R157). -/
theorem meets_of_invertsExactly (h : invertsExactly fb fb' A) : meets fb' A true ↔ meets fb A false := by
  refine exists_congr fun px => exists_congr fun py => and_congr_right fun a => ?_
  rw [(h px py).1 a]
  cases getPixel fb px py <;> simp

/-- Pixels outside the inverted set meet as before. -/
theorem meets_of_disjoint (h : invertsExactly fb fb' A) (disjoint : ∀ px py, A px py → ¬ B px py)
    (lit : Bool) :
    meets fb' B lit ↔ meets fb B lit := by
  refine exists_congr fun px => exists_congr fun py => and_congr_right fun b => ?_
  rw [(h px py).2 fun a => disjoint px py a b]

theorem meets_congr (same : ∀ px py, A px py ↔ B px py) (lit : Bool) : meets fb A lit ↔ meets fb B lit := by
  simp only [meets, same]

theorem meets_or (lit : Bool) :
    meets fb (fun px py => A px py ∨ B px py) lit ↔ meets fb A lit ∨ meets fb B lit := by
  simp only [meets, or_and_right, exists_or]

end

theorem invertsExactly_none (fb : Framebuffer) {A : Nat → Nat → Prop} (none : ∀ px py, ¬ A px py) :
    invertsExactly fb fb A :=
  fun px py => ⟨fun a => absurd a (none px py), fun _ => rfl⟩

/-- These coordinates name this pixel (R151). -/
def samePixel (x y px py : Nat) : Prop := px % 64 = x % 64 ∧ py % 32 = y % 32

theorem flipPixel_inverts (fb : Framebuffer) (x y : Nat) :
    invertsExactly fb (flipPixel fb x y) (samePixel x y) := by
  intro px py
  rw [getPixel_flipPixel]
  exact ⟨fun same => by simp [show _ ∧ _ from same], fun other => by simp [show ¬ (_ ∧ _) from other]⟩

theorem meets_samePixel_iff (fb : Framebuffer) (x y : Nat) (lit : Bool) :
    meets fb (samePixel x y) lit ↔ getPixel fb x y = lit := by
  constructor
  · rintro ⟨px, py, ⟨hx, hy⟩, pixel⟩
    rw [getPixel_wrap, ← hx, ← hy, ← getPixel_wrap, pixel]
  · exact fun pixel => ⟨x, y, ⟨rfl, rfl⟩, pixel⟩

/-! ### One row, pixel by pixel -/

/-- A set bit among the first `n` columns of a row at `(x, y)` lies on the pixel (R153). -/
def columnsCover (b : Byte) (n x y px py : Nat) : Prop :=
  py % 32 = y % 32 ∧ ∃ k < n, b.getLsbD (7 - k) = true ∧ px % 64 = (x + k) % 64

/-- The first `n` columns of a row, drawn from the left. -/
def drawColumns (fb : Framebuffer) (x y : Nat) (b : Byte) (n : Nat) : Framebuffer × Bool :=
  (List.range n).foldl (drawBit b x y) (fb, false)

theorem drawRow_eq_drawColumns (fb : Framebuffer) (x y : Nat) (b : Byte) :
    drawRow fb x y b = drawColumns fb x y b 8 := rfl

theorem drawColumns_succ (fb : Framebuffer) (x y : Nat) (b : Byte) (n : Nat) :
    drawColumns fb x y b (n + 1) = drawBit b x y (drawColumns fb x y b n) n := by
  rw [drawColumns, List.range_succ, List.foldl_append]
  rfl

theorem columnsCover_succ_of_set {b : Byte} {n : Nat} (set : b.getLsbD (7 - n) = true) (x y px py : Nat) :
    columnsCover b (n + 1) x y px py ↔ columnsCover b n x y px py ∨ samePixel (x + n) y px py := by
  simp only [columnsCover, samePixel, Nat.lt_succ_iff_lt_or_eq, or_and_right, exists_or, exists_eq_left, set,
    true_and, and_or_left]
  exact or_congr_right and_comm

theorem columnsCover_succ_of_not_set {b : Byte} {n : Nat} (notSet : b.getLsbD (7 - n) = false)
    (x y px py : Nat) :
    columnsCover b (n + 1) x y px py ↔ columnsCover b n x y px py := by
  simp only [columnsCover, Nat.lt_succ_iff_lt_or_eq, or_and_right, exists_or, exists_eq_left, notSet,
    Bool.false_eq_true, false_and, or_false]

/-- Fewer than 64 columns do not wrap onto each other. -/
theorem columnsCover_disjoint {b : Byte} {n : Nat} (few : n < 64) (x y px py : Nat) :
    columnsCover b n x y px py → ¬ samePixel (x + n) y px py := by
  rintro ⟨-, k, before, -, hk⟩ ⟨hn, -⟩
  omega

/-- The columns drawn so far inverted the pixels under their set bits, and hit if one of those was set: the
next column's pixel is not among them. -/
theorem drawColumns_inverts (fb : Framebuffer) (x y : Nat) (b : Byte) :
    ∀ n ≤ 64, invertsExactly fb (drawColumns fb x y b n).1 (columnsCover b n x y) ∧
      ((drawColumns fb x y b n).2 = true ↔ meets fb (columnsCover b n x y) true) := by
  intro n few
  induction n with
  | zero =>
    have none (px py : Nat) : ¬ columnsCover b 0 x y px py := by simp [columnsCover]
    exact ⟨invertsExactly_none fb none, by simp [drawColumns, meets, none]⟩
  | succ n ih =>
    obtain ⟨inverts, hit⟩ := ih (by omega)
    have disjoint := columnsCover_disjoint (b := b) (by omega : n < 64) x y
    rw [drawColumns_succ, drawBit]
    cases set : b.getLsbD (7 - n) with
    | true =>
      have cover := columnsCover_succ_of_set set x y
      have both := invertsExactly_or inverts (flipPixel_inverts _ (x + n) y) disjoint
      refine ⟨invertsExactly_congr both cover, ?_⟩
      rw [if_pos rfl, meets_congr cover, meets_or, ← hit, ← meets_of_disjoint inverts disjoint,
        meets_samePixel_iff, Bool.or_eq_true]
    | false =>
      have cover := columnsCover_succ_of_not_set set x y
      rw [if_neg Bool.false_ne_true, meets_congr cover]
      exact ⟨invertsExactly_congr inverts cover, hit⟩

/-- A set bit of a row at `(x, y)` lies on the pixel (R153). -/
abbrev rowCovers (b : Byte) (x y px py : Nat) : Prop := columnsCover b 8 x y px py

theorem drawRow_inverts (fb : Framebuffer) (x y : Nat) (b : Byte) :
    invertsExactly fb (drawRow fb x y b).1 (rowCovers b x y) := by
  rw [drawRow_eq_drawColumns]
  exact (drawColumns_inverts fb x y b 8 (by decide)).1

theorem drawRow_hit_iff (fb : Framebuffer) (x y : Nat) (b : Byte) :
    (drawRow fb x y b).2 = true ↔ meets fb (rowCovers b x y) true := by
  rw [drawRow_eq_drawColumns]
  exact (drawColumns_inverts fb x y b 8 (by decide)).2

/-- A row meets a pixel exactly at one of its set bits (R154). -/
theorem meets_rowCovers_iff (fb : Framebuffer) (x y : Nat) (b : Byte) (lit : Bool) :
    meets fb (rowCovers b x y) lit ↔ ∃ k < 8, b.getLsbD (7 - k) = true ∧ getPixel fb (x + k) y = lit := by
  constructor
  · rintro ⟨px, py, ⟨hy, k, few, set, hx⟩, pixel⟩
    exact ⟨k, few, set, (meets_samePixel_iff fb _ _ lit).mp ⟨px, py, ⟨hx, hy⟩, pixel⟩⟩
  · rintro ⟨k, few, set, pixel⟩
    exact ⟨x + k, y, ⟨rfl, k, few, set, rfl⟩, pixel⟩

/-- Settles O48: the row's set bits are its covered pixels. -/
theorem drawRowInvertsUnderSetBits : Obligations.DrawRowInvertsUnderSetBits := by
  unfold Obligations.DrawRowInvertsUnderSetBits
  intro fb x y b
  exact ⟨drawRow_inverts fb x y b, (drawRow_hit_iff fb x y b).trans (meets_rowCovers_iff fb x y b true)⟩

/-! ### One row, byte by byte -/

/-- The bits of the row in a byte of the framebuffer: its left part, its right part, or none (R153). -/
def rowMask (x y : Nat) (b : Byte) (j : Fin 256) : Byte :=
  if j = pixelByte x y then rowLeft x b else if j = rightByte x y then rowRight x b else 0

theorem rightByte_ne_pixelByte (x y : Nat) : rightByte x y ≠ pixelByte x y := by
  rw [Ne, Fin.ext_iff, rightByte, pixelByte]
  simp only
  omega

/-- The bytes of a row are XORed with its bits, the bytes beside it are left alone (R153). -/
theorem get_drawRowBytes (fb : Framebuffer) (x y : Nat) (b : Byte) (j : Fin 256) :
    (drawRowBytes fb x y b).1.get j = fb.get j ^^^ rowMask x y b j := by
  have apart := rightByte_ne_pixelByte x y
  simp only [drawRowBytes, Vector.get_eq_getElem, Vector.getElem_set, Fin.val_inj, rowMask]
  by_cases left : j = pixelByte x y
  · simp [left, apart]
  · by_cases right : j = rightByte x y
    · simp [right, apart]
    · simp [left, right, Ne.symm left, Ne.symm right]

theorem rowLeft_bit (x : Nat) (b : Byte) (i : Nat) :
    (rowLeft x b).getLsbD i = b.getLsbD (x % 64 % 8 + i) := by
  rw [rowLeft, BitVec.getLsbD_ushiftRight]

theorem rowRight_bit (x : Nat) (b : Byte) {i : Nat} (hi : i < 8) :
    (rowRight x b).getLsbD i = (decide (8 - x % 64 % 8 ≤ i) && b.getLsbD (i - (8 - x % 64 % 8))) := by
  rw [rowRight, BitVec.getLsbD_ofNat, Nat.testBit_mul_two_pow, decide_eq_true hi, Bool.true_and]
  rfl

theorem pixelByte_eq_pixelByte_iff (x y px py : Nat) :
    pixelByte px py = pixelByte x y ↔ px % 64 / 8 = x % 64 / 8 ∧ py % 32 = y % 32 := by
  rw [Fin.ext_iff, pixelByte, pixelByte]
  simp only
  omega

theorem pixelByte_eq_rightByte_iff (x y px py : Nat) :
    pixelByte px py = rightByte x y ↔ px % 64 / 8 = (x % 64 / 8 + 1) % 8 ∧ py % 32 = y % 32 := by
  rw [Fin.ext_iff, pixelByte, rightByte]
  simp only
  omega

/-- In the row's left byte a pixel is under column `k` when it stands `k` columns right of the row's start. -/
theorem rowCovers_iff_rowLeft {x y px py : Nat} (b : Byte) (byte : pixelByte px py = pixelByte x y) :
    rowCovers b x y px py ↔ (rowLeft x b).getLsbD (pixelBit px) = true := by
  obtain ⟨column, row⟩ := (pixelByte_eq_pixelByte_iff x y px py).mp byte
  rw [rowLeft_bit, pixelBit]
  constructor
  · rintro ⟨-, k, few, set, place⟩
    rwa [show x % 64 % 8 + (7 - px % 64 % 8) = 7 - k by omega]
  · intro set
    have inByte := BitVec.lt_of_getLsbD set
    refine ⟨row, px % 64 % 8 - x % 64 % 8, by omega, ?_, by omega⟩
    rwa [show 7 - (px % 64 % 8 - x % 64 % 8) = x % 64 % 8 + (7 - px % 64 % 8) by omega]

/-- In the byte to the right the row goes on with the columns that the left byte has no room for. -/
theorem rowCovers_iff_rowRight {x y px py : Nat} (b : Byte) (byte : pixelByte px py = rightByte x y) :
    rowCovers b x y px py ↔ (rowRight x b).getLsbD (pixelBit px) = true := by
  obtain ⟨column, row⟩ := (pixelByte_eq_rightByte_iff x y px py).mp byte
  rw [rowRight_bit x b (pixelBit_lt px), pixelBit, Bool.and_eq_true, decide_eq_true_iff]
  constructor
  · rintro ⟨-, k, few, set, place⟩
    refine ⟨by omega, ?_⟩
    rwa [show 7 - px % 64 % 8 - (8 - x % 64 % 8) = 7 - k by omega]
  · rintro ⟨goesOn, set⟩
    refine ⟨row, 8 - x % 64 % 8 + px % 64 % 8, by omega, ?_, by omega⟩
    rwa [show 7 - (8 - x % 64 % 8 + px % 64 % 8) = 7 - px % 64 % 8 - (8 - x % 64 % 8) by omega]

/-- A row covers pixels of two bytes only. -/
theorem pixelByte_of_rowCovers {b : Byte} {x y px py : Nat} (covers : rowCovers b x y px py) :
    pixelByte px py = pixelByte x y ∨ pixelByte px py = rightByte x y := by
  obtain ⟨row, k, few, -, place⟩ := covers
  rw [pixelByte_eq_pixelByte_iff, pixelByte_eq_rightByte_iff]
  omega

/-- The two levels name the same pixels (R153). -/
theorem rowCovers_iff_rowMask (b : Byte) (x y px py : Nat) :
    rowCovers b x y px py ↔ (rowMask x y b (pixelByte px py)).getLsbD (pixelBit px) = true := by
  rw [rowMask]
  split
  · next left => exact rowCovers_iff_rowLeft b left
  · next notLeft =>
    split
    · next right => exact rowCovers_iff_rowRight b right
    · next notRight =>
      have none : ¬ rowCovers b x y px py := fun covers =>
        (pixelByte_of_rowCovers covers).elim notLeft notRight
      simpa using none

theorem drawRowBytes_inverts (fb : Framebuffer) (x y : Nat) (b : Byte) :
    invertsExactly fb (drawRowBytes fb x y b).1 (rowCovers b x y) := by
  intro px py
  rw [rowCovers_iff_rowMask, getPixel, getPixel, get_drawRowBytes, BitVec.getLsbD_xor]
  constructor
  · intro set
    rw [set, Bool.xor_true]
  · intro notSet
    rw [Bool.not_eq_true] at notSet
    rw [notSet, Bool.xor_false]

theorem and_ne_zero_iff (a m : Byte) : a &&& m ≠ 0 ↔ ∃ i < 8, a.getLsbD i = true ∧ m.getLsbD i = true := by
  constructor
  · intro nonzero
    by_contra none
    push Not at none
    refine nonzero (BitVec.eq_of_getLsbD_eq fun i hi => ?_)
    simpa using none i hi
  · rintro ⟨i, -, ha, hm⟩ zero
    have bit : (a &&& m).getLsbD i = true := by rw [BitVec.getLsbD_and, ha, hm]; rfl
    simp [zero] at bit

/-- A byte hit is a set bit of the row on a set pixel, in one of the two bytes. -/
theorem drawRowBytes_hit_iff (fb : Framebuffer) (x y : Nat) (b : Byte) :
    (drawRowBytes fb x y b).2 = true ↔ meets fb (rowCovers b x y) true := by
  have left : rowMask x y b (pixelByte x y) = rowLeft x b := if_pos rfl
  have right : rowMask x y b (rightByte x y) = rowRight x b := by
    rw [rowMask, if_neg (rightByte_ne_pixelByte x y), if_pos rfl]
  have hit (j : Fin 256) : fb.get j &&& rowMask x y b j ≠ 0 ↔
      ∃ px py, pixelByte px py = j ∧ rowCovers b x y px py ∧ getPixel fb px py = true := by
    rw [and_ne_zero_iff]
    constructor
    · rintro ⟨i, hi, pixel, set⟩
      obtain ⟨px, py, rfl, rfl⟩ := exists_pixel j hi
      exact ⟨px, py, rfl, (rowCovers_iff_rowMask b x y px py).mpr set, pixel⟩
    · rintro ⟨px, py, rfl, covers, pixel⟩
      exact ⟨pixelBit px, pixelBit_lt px, pixel, (rowCovers_iff_rowMask b x y px py).mp covers⟩
  rw [drawRowBytes, decide_eq_true_iff, ← left, ← right, hit, hit]
  constructor
  · rintro (⟨px, py, -, met⟩ | ⟨px, py, -, met⟩) <;> exact ⟨px, py, met⟩
  · rintro ⟨px, py, met⟩
    obtain byte | byte := pixelByte_of_rowCovers met.1
    · exact .inl ⟨px, py, byte, met⟩
    · exact .inr ⟨px, py, byte, met⟩

/-- Settles O47: both levels invert the pixels under the row's set bits and hit at the same ones. -/
theorem drawRowPixelsAreBytes : Obligations.DrawRowPixelsAreBytes := by
  unfold Obligations.DrawRowPixelsAreBytes
  intro fb x y b
  refine Prod.ext ?_ ?_
  · exact invertsExactly_unique (drawRow_inverts fb x y b) (drawRowBytes_inverts fb x y b)
  · rw [Bool.eq_iff_iff, drawRow_hit_iff, drawRowBytes_hit_iff]

end Sys2Proof.Machine
end

