-- ==== Sys2Proof/Proofs/Draw.lean ====
section
/-! Clearing, a whole sprite, and DRW (spec/44_drawing.md R155 to R157). -/

namespace Sys2Proof.Machine

open Sys2Proof.Claims

/-! ### Clearing -/

/-- Settles O46: a pixel is a bit of a zero byte. -/
theorem clearUnsetsEveryPixel : Obligations.ClearUnsetsEveryPixel := by
  unfold Obligations.ClearUnsetsEveryPixel
  intro s
  have zero (j : Fin 256) : clearedFramebuffer.get j = 0 := by simp [clearedFramebuffer, Vector.get_eq_getElem]
  refine ⟨_, rfl, rfl, fun _ => rfl, zero, fun x y => ?_⟩
  rw [setFramebuffer_fb, getPixel, zero]
  exact BitVec.getLsbD_zero

/-! ### A sprite, row by row -/

/-- A set bit of one of these rows, drawn downward from `(x, y)`, lies on the pixel (R156). -/
def rowsCover (rows : List Byte) (x y px py : Nat) : Prop :=
  ∃ row < rows.length, rowCovers (rows.getD row 0) x (y + row) px py

theorem rowsCover_nil (x y px py : Nat) : ¬ rowsCover [] x y px py := by simp [rowsCover]

theorem rowsCover_cons (b : Byte) (rows : List Byte) (x y px py : Nat) :
    rowsCover (b :: rows) x y px py ↔ rowCovers b x y px py ∨ rowsCover rows x (y + 1) px py := by
  constructor
  · rintro ⟨row | row, within, covers⟩
    · exact .inl covers
    · refine .inr ⟨row, Nat.lt_of_succ_lt_succ within, ?_⟩
      rwa [Nat.add_right_comm]
  · rintro (covers | ⟨row, within, covers⟩)
    · exact ⟨0, Nat.succ_pos _, covers⟩
    · refine ⟨row + 1, Nat.succ_lt_succ within, ?_⟩
      rwa [Nat.add_right_comm] at covers

/-- At most 32 rows do not wrap onto each other. -/
theorem rowCovers_disjoint_rowsCover {b : Byte} {rows : List Byte} (few : rows.length < 32) (x y px py : Nat) :
    rowCovers b x y px py → ¬ rowsCover rows x (y + 1) px py := by
  rintro ⟨inRow, -⟩ ⟨row, within, inOther, -⟩
  omega

/-- A sprite inverts the pixels under its set bits, and hits if one of them was set: the rows below a row are
drawn on pixels that the row left alone. -/
theorem drawSprite_inverts (rows : List Byte) (fb : Framebuffer) (x y : Nat) (few : rows.length ≤ 32) :
    invertsExactly fb (drawSprite fb x y rows).1 (rowsCover rows x y) ∧
      ((drawSprite fb x y rows).2 = true ↔ meets fb (rowsCover rows x y) true) := by
  induction rows generalizing fb y with
  | nil => exact ⟨invertsExactly_none fb (rowsCover_nil x y), by simp [drawSprite, meets, rowsCover_nil]⟩
  | cons b rows ih =>
    rw [List.length_cons] at few
    have first := drawRow_inverts fb x y b
    obtain ⟨rest, hit⟩ := ih (drawRow fb x y b).1 (y + 1) (by omega)
    have disjoint := rowCovers_disjoint_rowsCover (b := b) (by omega : rows.length < 32) x y
    have cover := rowsCover_cons b rows x y
    refine ⟨invertsExactly_congr (invertsExactly_or first rest disjoint) cover, ?_⟩
    rw [meets_congr cover, meets_or, ← drawRow_hit_iff, ← meets_of_disjoint first disjoint, ← hit, drawSprite,
      Bool.or_eq_true]

/-- Rows meet a pixel exactly at a set bit of one of them (R154, R156). -/
theorem meets_rowsCover_iff (fb : Framebuffer) (rows : List Byte) (x y : Nat) (lit : Bool) :
    meets fb (rowsCover rows x y) lit ↔
      ∃ row < rows.length, ∃ k < 8, (rows.getD row 0).getLsbD (7 - k) = true ∧
        getPixel fb (x + k) (y + row) = lit := by
  simp only [← meets_rowCovers_iff]
  constructor
  · rintro ⟨px, py, ⟨row, within, covers⟩, pixel⟩
    exact ⟨row, within, px, py, covers, pixel⟩
  · rintro ⟨row, within, px, py, covers, pixel⟩
    exact ⟨px, py, ⟨row, within, covers⟩, pixel⟩

/-! ### DRW -/

/-- The rows of a draw, as they stand in memory. -/
def spriteRows (s : State) (n : Nibble) : List Byte := s.mem.readBytes (effAddr s 0) n.toNat

theorem length_spriteRows_le (s : State) (n : Nibble) : (spriteRows s n).length ≤ 32 := by
  rw [spriteRows, Memory.length_readBytes]
  omega

theorem spriteCovers_iff_rowsCover (s : State) (x y : Nat) (n : Nibble) (px py : Nat) :
    spriteCovers s x y n.toNat px py ↔ rowsCover (spriteRows s n) x y px py := by
  simp only [spriteCovers, rowsCover, spriteRows, Memory.length_readBytes]
  refine exists_congr fun row => and_congr_right fun within => ?_
  rw [Memory.getD_readBytes s.mem n.toNat _ row within]
  constructor
  · rintro ⟨k, few, set, column, line⟩
    exact ⟨line, k, few, set, column⟩
  · rintro ⟨line, k, few, set, column⟩
    exact ⟨k, few, set, column, line⟩

theorem spriteMeets_iff_meets (s : State) (x y : Nat) (n : Nibble) (lit : Bool) :
    spriteMeets s x y n.toNat lit ↔ meets s.fb (rowsCover (spriteRows s n) x y) lit := by
  rw [meets_rowsCover_iff, spriteRows, Memory.length_readBytes]
  refine exists_congr fun row => and_congr_right fun within => ?_
  rw [Memory.getD_readBytes s.mem n.toNat _ row within]
  rfl

/-- The framebuffer and the collision of a draw within memory (R156). -/
def drawn (s : State) (x y : RegId) (n : Nibble) : Framebuffer × Bool :=
  drawSprite s.fb (getReg s x).toNat (getReg s y).toNat (spriteRows s n)

theorem exec_drw {s : State} {n : Nibble} (range : rangeInMemory s n.toNat = true) (x y : RegId) :
    exec (.drw x y n) s =
      .next (setFlag (setFramebuffer s (drawn s x y n).1) (collisionFlag (drawn s x y n).2)) :=
  if_pos range

theorem drawn_inverts (s : State) (x y : RegId) (n : Nibble) :
    invertsExactly s.fb (drawn s x y n).1 (rowsCover (spriteRows s n) (getReg s x).toNat (getReg s y).toNat) :=
  (drawSprite_inverts _ s.fb _ _ (length_spriteRows_le s n)).1

theorem drawn_hit_iff (s : State) (x y : RegId) (n : Nibble) :
    (drawn s x y n).2 = true ↔
      meets s.fb (rowsCover (spriteRows s n) (getReg s x).toNat (getReg s y).toNat) true :=
  (drawSprite_inverts _ s.fb _ _ (length_spriteRows_le s n)).2

theorem collisionFlag_eq_one_iff (hit : Bool) : collisionFlag hit = 1 ↔ hit = true := by
  cases hit <;> decide

theorem drw_range_iff (s : State) (n : Nibble) :
    rangeInMemory s n.toNat = true ↔ n = 0 ∨ effAddr s (n.toNat - 1) < 4096 := by
  rw [rangeInMemory_iff, effAddr, ← BitVec.toNat_inj]
  rfl

/-- `VF` after a draw (R156). -/
theorem getReg_drawn_flag (s : State) (fb : Framebuffer) (hit : Bool) :
    getReg (setFlag (setFramebuffer s fb) (collisionFlag hit)) 15 = collisionFlag hit := by
  rw [getReg_setFlag, if_pos rfl]

/-- Settles O49: the sprite is drawn on the old registers' coordinates, then the flag is written. -/
theorem drawInvertsUnderTheSprite : Obligations.DrawInvertsUnderTheSprite := by
  unfold Obligations.DrawInvertsUnderTheSprite
  intro s x y n
  constructor
  · intro inMemory
    refine ⟨_, exec_drw ((drw_range_iff s n).mpr inMemory) x y, rfl, fun _ => rfl, ?_, ?_, ?_, ?_⟩
    · exact invertsExactly_congr (drawn_inverts s x y n) (spriteCovers_iff_rowsCover s _ _ n)
    · intro met
      rw [spriteMeets_iff_meets, ← drawn_hit_iff] at met
      rw [getReg_drawn_flag, collisionFlag_eq_one_iff, met]
    · intro notMet
      rw [spriteMeets_iff_meets, ← drawn_hit_iff, Bool.not_eq_true] at notMet
      rw [getReg_drawn_flag, notMet]
      rfl
    · intro k other
      rw [getReg_setFlag, if_neg other, getReg_setFramebuffer]
  · intro someRow past
    exact if_neg fun range => ((drw_range_iff s n).mp range).elim someRow (Nat.not_lt.mpr past)

/-- Settles O50: the second draw has the rows and the coordinates of the first, so it inverts the same pixels of
what the first left. -/
theorem drawingTwiceRestores : Obligations.DrawingTwiceRestores := by
  unfold Obligations.DrawingTwiceRestores
  intro s t x y n executed
  obtain ⟨range, rfl⟩ := next_of_guard executed
  have first := drawn_inverts s x y n
  let between : State := { s with fb := (drawn s x y n).1 }
  have second := drawn_inverts between x y n
  refine ⟨_, exec_drw (s := between) range x y, invertsExactly_twice first second, ?_, ?_⟩
  · rw [getReg_drawn_flag, collisionFlag_eq_one_iff, drawn_hit_iff, spriteMeets_iff_meets]
    exact meets_of_invertsExactly first
  · rw [getReg_drawn_flag, collisionFlag_eq_one_iff, spriteMeets_iff_meets]
    exact drawn_hit_iff s x y n

end Sys2Proof.Machine
end
